-- ==== Sys2Proof/Word.lean ====
section
/-! DEFINITION. The two word types of the block and their plainest arithmetic (R8, R10, R11).

All values are unsigned (R10). On these types `+` is already the reduced sum of R11: `x + y` on `Byte` is
`x +8 y` and on `Addr` it is `x +16 y`, and `hi ++ lo` is the concatenation `{hi, lo}`. -/

namespace Sys2Proof

/-- An 8-bit value: a general register, a memory answer, an opcode (R8). -/
abbrev Byte := BitVec 8

/-- A 16-bit value: the program counter, an address, a register pair (R8). -/
abbrev Addr := BitVec 16

end Sys2Proof
end

