-- ==== Sys2Proof/Types.lean ====
section
/-! DEFINITION. The names the spec uses for registers, pairs, conditions and flags: fixed sets, so inductive types. -/

namespace Sys2Proof

/-- `Reg8`: the seven general registers (R20, R34). F is not one of them. -/
inductive Reg8 where
  | a | b | c | d | e | h | l
deriving DecidableEq, Repr

/-- `Pair`: the four 16-bit views of two 8-bit registers (R28). -/
inductive Pair where
  | af | bc | de | hl
deriving DecidableEq, Repr

/-- `Cond`: the five condition selectors of the jump (R75, R160). -/
inductive Cond where
  | always | nz | z | nc | c
deriving DecidableEq, Repr

/-- The flags register F, stored as four booleans: bits 3..0 of its packed form are not state (R23). -/
structure Flags where
  z : Bool
  n : Bool
  h : Bool
  c : Bool
deriving DecidableEq, Repr

/-- `AF_WRITE_MODE`: what a write of the pair af writes its low byte into (R9, R32). -/
inductive AfWriteMode where
  /-- The spec's default: a and F. -/
  | corrected
  /-- The repository's code: a and c, F untouched. -/
  | sourceCompat
deriving DecidableEq, Repr

/-- R83's decoded instruction, a tagged value with exactly two variants. The jump's address bytes are no part of
it: they are read at execute time, and only when the condition holds. -/
inductive Form where
  | add (src : Reg8)
  | jp (cond : Cond)
deriving DecidableEq, Repr

end Sys2Proof
end

