-- ==== Sys2Proof/Syntax.lean ====
section
/-! DEFINITION. The admitted instructions: one constructor per row of spec/opcode_table.json. -/

namespace Sys2Proof

/-- The twelve admitted instructions (D3). They carry no operand field: the register or the condition is part of
the opcode byte, and a jump's address bytes are read from memory when it executes (R83, R161). -/
inductive Instr where
  | addAB | addAC | addAD | addAE | addAH | addAL | addAA
  | jpNN | jpNzNN | jpZNN | jpNcNN | jpCNN
deriving DecidableEq, Repr

/-- The instruction as R83's tagged value: which register an add reads, which condition a jump tests. -/
def Instr.form : Instr → Form
  | .addAB => .add .b
  | .addAC => .add .c
  | .addAD => .add .d
  | .addAE => .add .e
  | .addAH => .add .h
  | .addAL => .add .l
  | .addAA => .add .a
  | .jpNN => .jp .always
  | .jpNzNN => .jp .nz
  | .jpZNN => .jp .z
  | .jpNcNN => .jp .nc
  | .jpCNN => .jp .c

/-- The instruction in the conventional assembler spelling; `nn` stands for the target (R87). -/
def Instr.assembly : Instr → String
  | .addAB => "ADD A,B"
  | .addAC => "ADD A,C"
  | .addAD => "ADD A,D"
  | .addAE => "ADD A,E"
  | .addAH => "ADD A,H"
  | .addAL => "ADD A,L"
  | .addAA => "ADD A,A"
  | .jpNN => "JP nn"
  | .jpNzNN => "JP NZ,nn"
  | .jpZNN => "JP Z,nn"
  | .jpNcNN => "JP NC,nn"
  | .jpCNN => "JP C,nn"

/-- An instruction as it stands in a byte stream: the instruction and the bytes after its opcode (R72). -/
structure Code where
  instr : Instr
  operand : List Byte
deriving DecidableEq, Repr

end Sys2Proof
end

