-- ==== Sys2Proof/WellFormed.lean ====
section
/-! DEFINITION. Which instructions with operand bytes the formats R8 and A16 admit (R70 to R72).

`Instr` has no ill-formed term; the one thing a byte stream can get wrong about an admitted instruction is the
number of bytes after its opcode. -/

namespace Sys2Proof

/-- The number of bytes an instruction occupies: 1 for the add form, 3 for the jump form (R70). -/
def Instr.width (i : Instr) : Nat :=
  match i.form with
  | .add _ => 1
  | .jp _ => 3

/-- An instruction stands with exactly the operand bytes its format has: none for `R8`, `lo` and `hi` for `A16`. -/
def Code.wf (c : Code) : Bool :=
  c.operand.length + 1 == c.instr.width

end Sys2Proof
end

