-- ==== Sys2Proof/Decode.lean ====
section
/-! DEFINITION. The instruction_decoder (R77 to R86), a reader of byte streams over it, and the encoder.

The decoder's port list (R77) is `decode`'s type: `opcode` and `prefixed` in; `valid` and `instr` out, as an
`Option`. The opcode values, the `r` field and the `cc` field are the spec's decisions D4 to D6. -/

namespace Sys2Proof

/-- The prefix byte 0xCB (R73). -/
def prefixByte : Byte := 0xCB#8

/-- `v[lo+len-1 : lo]` of a byte (R10). -/
def bitField (lo len : Nat) (v : Byte) : BitVec len :=
  v.extractLsb' lo len

/-- The `r` field, bits 2..0 of an `R8` opcode (R74). 0b110 names no register and is not admitted. -/
def regOfField (r : BitVec 3) : Option Reg8 :=
  if r = 0b000#3 then some .b
  else if r = 0b001#3 then some .c
  else if r = 0b010#3 then some .d
  else if r = 0b011#3 then some .e
  else if r = 0b100#3 then some .h
  else if r = 0b101#3 then some .l
  else if r = 0b111#3 then some .a
  else none

/-- The `cc` field, bits 4..3 of a `110cc010` opcode (R75). -/
def condOfField (cc : BitVec 2) : Cond :=
  if cc = 0b00#2 then .nz
  else if cc = 0b01#2 then .z
  else if cc = 0b10#2 then .nc
  else .c

/-- The instruction of the opcode table that is R83's tagged value. -/
def instrOfForm : Form → Instr
  | .add .b => .addAB
  | .add .c => .addAC
  | .add .d => .addAD
  | .add .e => .addAE
  | .add .h => .addAH
  | .add .l => .addAL
  | .add .a => .addAA
  | .jp .always => .jpNN
  | .jp .nz => .jpNzNN
  | .jp .z => .jpZNN
  | .jp .nc => .jpNcNN
  | .jp .c => .jpCNN

/-- The base table, R78's pure function, branch for branch. -/
def decodeBase (op : Byte) : Option Form :=
  if bitField 3 5 op = 0b10000#5 then (regOfField (bitField 0 3 op)).map Form.add
  else if op = 0xC3#8 then some (.jp .always)
  else if bitField 5 3 op = 0b110#3 ∧ bitField 0 3 op = 0b010#3 then some (.jp (condOfField (bitField 3 2 op)))
  else none

/-- The secondary table admits no byte (R79). -/
def decodeSecondary (_op : Byte) : Option Form := none

/-- `decode(op, p)`: the decoder's answer, `none` on a table miss (R77 to R82). -/
def decode (op : Byte) (prefixed : Bool) : Option Instr :=
  (if prefixed then decodeSecondary op else decodeBase op).map instrOfForm

/-- Why a byte stream does not begin with an admitted instruction. -/
inductive DecodeError where
  /-- The selected table has no instruction for the byte (R81, R85). -/
  | noInstruction (opcode : Byte) (prefixed : Bool)
  /-- The stream ends inside the instruction. The machine never meets this: memory has a byte at every address. -/
  | truncated
deriving DecidableEq, Repr

/-- The instruction at the head of a byte stream with its operand bytes, and the bytes after it (R70, R73, R86). -/
def decodeBytes : List Byte → Except DecodeError (Code × List Byte)
  | [] => .error .truncated
  | op0 :: rest =>
    if op0 = prefixByte then
      match rest with
      | [] => .error .truncated
      | op :: after =>
        match decode op true with
        | none => .error (.noInstruction op true)
        | some i => takeOperand i after
    else
      match decode op0 false with
      | none => .error (.noInstruction op0 false)
      | some i => takeOperand i rest
where
  /-- Split off the operand bytes of an instruction whose opcode has been read. -/
  takeOperand (i : Instr) (bytes : List Byte) : Except DecodeError (Code × List Byte) :=
    if bytes.length + 1 < i.width then .error .truncated
    else .ok ({ instr := i, operand := bytes.take (i.width - 1) }, bytes.drop (i.width - 1))

/-- The `r` field's value for a register (R74). -/
def regCode : Reg8 → BitVec 3
  | .b => 0b000#3
  | .c => 0b001#3
  | .d => 0b010#3
  | .e => 0b011#3
  | .h => 0b100#3
  | .l => 0b101#3
  | .a => 0b111#3

/-- The opcode byte of a jump: 0xC3, or `110cc010` with R75's `cc` (R72). -/
def jumpOpcode : Cond → Byte
  | .always => 0xC3#8
  | .nz => 0b110#3 ++ 0b00#2 ++ 0b010#3
  | .z => 0b110#3 ++ 0b01#2 ++ 0b010#3
  | .nc => 0b110#3 ++ 0b10#2 ++ 0b010#3
  | .c => 0b110#3 ++ 0b11#2 ++ 0b010#3

/-- The opcode byte of an instruction: format `R8` is `10000rrr` (R71), format `A16` as `jumpOpcode` (R72). -/
def opcodeByte (i : Instr) : Byte :=
  match i.form with
  | .add r => 0b10000#5 ++ regCode r
  | .jp cond => jumpOpcode cond

/-- The bytes of an instruction in a stream: the opcode at the lowest address, then its operand bytes (R58). -/
def encode (c : Code) : List Byte :=
  opcodeByte c.instr :: c.operand

/-- The three bytes, first one least significant, of a table word of `nbits` bits: the longest instruction's
length, with zeros above `nbits`. -/
def tableBytes (nbits w : Nat) : List Byte :=
  let v := w % 2 ^ nbits
  [BitVec.ofNat 8 v, BitVec.ofNat 8 (v / 256), BitVec.ofNat 8 (v / 65536)]

/-- The instruction the decoder reads from a table word (`none` where it refuses). -/
def decodeTableWord (nbits w : Nat) : Option Instr :=
  match decodeBytes (tableBytes nbits w) with
  | .ok (c, _) => some c.instr
  | .error _ => none

end Sys2Proof
end

