-- ==== Sys2Proof/Config.lean ====
section
/-! DEFINITION. The open parameters of the hardware (R9) and the values the model names for them.

`RESET_REGS`, `ENTRY_PC` and `AF_WRITE_MODE` are fields of `Params`, an argument of reset and of the driver, so a
claim quantifies over them. The fourth open parameter, `MEM`, is the memory field of the machine's state. -/

namespace Sys2Proof

/-- `RESET_REGS`: the register file's contents after reset (R9, R42). -/
structure ResetRegs where
  a : Byte
  b : Byte
  c : Byte
  d : Byte
  e : Byte
  h : Byte
  l : Byte
  f : Flags
deriving DecidableEq, Repr

/-- The named parameters a model takes as arguments (R9), but for `MEM`. -/
structure Params where
  resetRegs : ResetRegs
  entryPc : Addr
  afWriteMode : AfWriteMode
deriving DecidableEq, Repr

/-- R211's profile `ZEROED`, the source's "registers zeroed". Its program counter stays open. -/
def ResetRegs.zeroed : ResetRegs :=
  { a := 0x00#8, b := 0x00#8, c := 0x00#8, d := 0x00#8, e := 0x00#8, h := 0x00#8, l := 0x00#8,
    f := { z := false, n := false, h := false, c := false } }

/-- The registers of R211's profile `DMG_POST_BOOT`, the source's "post-boot defaults". -/
def ResetRegs.dmgPostBoot : ResetRegs :=
  { a := 0x01#8, b := 0x00#8, c := 0x13#8, d := 0x00#8, e := 0xD8#8, h := 0x01#8, l := 0x4D#8,
    f := { z := true, n := false, h := true, c := true } }

/-- The values the model names for the open parameters: the registers and the entry address of R211's profile
`DMG_POST_BOOT` (DESIGN CHOICE, log entry 1) and the spec's default of `AF_WRITE_MODE` (R32, log entry 2). -/
def Config.params : Params :=
  { resetRegs := ResetRegs.dmgPostBoot, entryPc := 0x0100#16, afWriteMode := .corrected }

/-- What an address reads as that the memory list does not name (DESIGN CHOICE, log entry 3). No claim about
every state rests on it: whatever total function `MEM` is (R50), one canonical memory list reads as it. -/
def Config.unlistedByte : Byte := 0x00#8

end Sys2Proof
end

