-- ==== Sys2Proof/Machine/State.lean ====
section
/-! DEFINITION. The block's state (R43), the host's machine around it, what can stop a step, and reset (R210). -/

namespace Sys2Proof.Machine

/-- What the memory device answers, `MEM` (R50): address and byte pairs, addresses strictly rising, no entry equal
to what an unlisted address reads as. -/
abbrev Memory := List Host.Cell

/-- R43's complete architectural state of the block, and nothing else: the seven registers, F and pc. The memory
device is no part of it (`blockStep` takes the device's answers as an input), nor is any parameter (`Params`). -/
structure Block where
  a : Byte
  b : Byte
  c : Byte
  d : Byte
  e : Byte
  h : Byte
  l : Byte
  f : Flags
  pc : Addr
deriving DecidableEq, Repr

/-- The machine the host steps: the block beside the memory device's answers. The host's interface hands a step one
value, so the input `MEM` of R107's `step(S, MEM)` stands here as the MODEL's own field (log entry 4). -/
structure State extends Block where
  mem : Memory
deriving DecidableEq, Repr

/-- The one exception of the block (R190). -/
inductive Fault where
  /-- `DecodeFailure(opcode, prefixed)`, raised by the fetch and decode phase when the selected table has no
  instruction for the byte; no state changes (R190, R191, R195). Safe: for a byte the real CPU defines, the model
  stops where the chip goes on (R200). -/
  | decodeFailure (opcode : Byte) (prefixed : Bool)
deriving DecidableEq, Repr

/-- What the model gives no meaning. -/
inductive Refusal where
  /-- An instruction with no meaning yet, raised by a refused arm of `exec`. Safe. No arm is refused. -/
  | notModelled (mnemonic : String)
  /-- A register file request that asserts a core write port and a host write port in one step, or both host
  write ports together, raised by `portWrite`: "a model refuses it" (R35). Safe. No step raises it. -/
  | portConflict
deriving DecidableEq, Repr

/-- `reset(RESET_REGS, ENTRY_PC)` (R210): every register and flag from the one, the program counter from the
other. -/
def Block.resetWith (p : Params) : Block :=
  { a := p.resetRegs.a, b := p.resetRegs.b, c := p.resetRegs.c, d := p.resetRegs.d, e := p.resetRegs.e,
    h := p.resetRegs.h, l := p.resetRegs.l, f := p.resetRegs.f, pc := p.entryPc }

/-- The machine after a reset of its block; memory is neither read nor written (R210). -/
def State.resetWith (p : Params) (m : Memory) : State :=
  { toBlock := Block.resetWith p, mem := m }

/-- The machine right after reset at the parameter values the model names (log entry 1), memory with nothing
listed (log entry 3). -/
def State.reset : State :=
  State.resetWith Config.params []

end Sys2Proof.Machine
end

