-- ==== Sys2Proof/Machine/Ops.lean ====
section
/-! DEFINITION. The named operations over memory, the block as a whole, pc and the outcome of a step.

There is no trap entry and no trap return on this hardware (R198, R199): taking the block's one exception is
`raiseDecodeFailure`, which hands the failure to the caller of the step, and there is nothing to return from. -/

namespace Sys2Proof.Machine

/-- The byte at address number `n` of a memory list. -/
def Memory.lookup : Memory → Nat → Byte
  | [], _ => Config.unlistedByte
  | (k, v) :: rest, n => if k = n then v else Memory.lookup rest n

/-- `MemRead(addr, 1)` (R50): every read succeeds, at any 16-bit address (R53). -/
def Memory.read (m : Memory) (addr : Addr) : Byte :=
  Memory.lookup m addr.toNat

/-- Put an entry at the head of a memory list, unless it says what an unlisted address reads as anyway. -/
def Memory.consEntry (n : Nat) (v : Byte) (rest : Memory) : Memory :=
  if v = Config.unlistedByte then rest else (n, v) :: rest

/-- Change the byte at address number `n`, keeping the canonical form. -/
def Memory.insert : Memory → Nat → Byte → Memory
  | [], n, v => Memory.consEntry n v []
  | (k, w) :: rest, n, v =>
    if n < k then Memory.consEntry n v ((k, w) :: rest)
    else if n = k then Memory.consEntry n v rest
    else (k, w) :: Memory.insert rest n v

/-- Change what the memory device answers at one address. The core never does this (R52): only the host does,
between steps (R55, D23). -/
def Memory.write (m : Memory) (addr : Addr) (v : Byte) : Memory :=
  Memory.insert m addr.toNat v

/-- Change the answers at consecutive addresses from `addr` up, wrapping modulo 65536 (R38). -/
def Memory.writeBytes (m : Memory) (addr : Addr) : List Byte → Memory
  | [] => m
  | v :: rest => Memory.writeBytes (Memory.write m addr v) (addr + 1#16) rest

/-- Change the answers at the addresses of a list, the first pair first. -/
def Memory.writeCells (m : Memory) : List (Addr × Byte) → Memory
  | [] => m
  | (addr, v) :: rest => Memory.writeCells (Memory.write m addr v) rest

/-- The bytes at `n` consecutive addresses from `addr` up, wrapping modulo 65536 (R38). -/
def Memory.bytesFrom (m : Memory) (addr : Addr) : Nat → List Byte
  | 0 => []
  | n + 1 => Memory.read m addr :: Memory.bytesFrom m (addr + 1#16) n

/-- The canonical form from address number `lo` up. -/
def Memory.wfFrom (lo : Nat) : Memory → Bool
  | [] => true
  | (k, v) :: rest =>
    decide (lo ≤ k) && decide (k < 65536) && decide (v ≠ Config.unlistedByte) && Memory.wfFrom (k + 1) rest

/-- The one canonical form: addresses strictly rising and below 65536 (R51), no entry equal to what an unlisted
address reads as. -/
def Memory.wf (m : Memory) : Bool :=
  Memory.wfFrom 0 m

/-- The state's invariant: its memory is in the canonical form. Registers, flags and pc have no illegal value. -/
def State.wf (s : State) : Bool :=
  Memory.wf s.mem

/-- `pc <- target` (R12). -/
def Block.setPc (s : Block) (target : Addr) : Block :=
  { s with pc := target }

/-- All of a step's writes to the block, landing at once; the memory device's answers stay (R13, R52, R108). -/
def State.withBlock (s : State) (block : Block) : State :=
  { s with toBlock := block }

/-- `raise DecodeFailure(opcode, prefixed)`: the step ends, every pending write is discarded, nothing is saved and
no control is transferred (R13, R190, R191, R198). -/
def raiseDecodeFailure {σ : Type} (opcode : Byte) (prefixed : Bool) : Host.Outcome σ Fault Refusal :=
  .fault (.decodeFailure opcode prefixed)

end Sys2Proof.Machine
end

