-- ==== Sys2Proof/Machine/Flags.lean ====
section
/-! DEFINITION. The flags: their packing (R24, R25) and alu_with_carry_half_carry, which computes them (R130). -/

namespace Sys2Proof.Machine

/-- `flags_to_byte(F)`: bit 7 = Z, bit 6 = N, bit 5 = H, bit 4 = C, bits 3..0 = 0 (R24). -/
def flagsToByte (f : Flags) : Byte :=
  BitVec.ofBool f.z ++ BitVec.ofBool f.n ++ BitVec.ofBool f.h ++ BitVec.ofBool f.c ++ 0b0000#4

/-- `byte_to_flags(v)`: bits 3..0 are discarded, no value is rejected (R25). -/
def byteToFlags (v : Byte) : Flags :=
  { z := v.getLsbD 7, n := v.getLsbD 6, h := v.getLsbD 5, c := v.getLsbD 4 }

/-- The output ports of the ALU: `res` and the four flags `z`, `n`, `h`, `c` (R130). -/
structure AluOut where
  res : Byte
  flags : Flags
deriving DecidableEq, Repr

/-- `add8(x, y)` (R130): the sum is taken exactly, then narrowed; H is the carry from bit 3 into bit 4 and C the
carry out of bit 7. There is no carry input and no overflow flag. -/
def add8 (x y : Byte) : AluOut :=
  let sum := x.toNat + y.toNat
  let res := BitVec.ofNat 8 (sum % 256)
  { res := res
    flags :=
      { z := decide (res = 0x00#8)
        n := false
        h := decide ((x &&& 0x0F#8).toNat + (y &&& 0x0F#8).toNat > 0x0F)
        c := decide (sum > 0xFF) } }

end Sys2Proof.Machine
end

