-- ==== Sys2Proof/Machine/Operands.lean ====
section
/-! DEFINITION. Operands: register and pair access (R12, R30 to R32), the conditions, and conditional_jump_mux
with the jump's memory operand (R160, R161). -/

namespace Sys2Proof.Machine

/-- `x[r]` (R12). No register is hardwired and none stands for another (R21). -/
def Block.readReg (s : Block) : Reg8 → Byte
  | .a => s.a
  | .b => s.b
  | .c => s.c
  | .d => s.d
  | .e => s.e
  | .h => s.h
  | .l => s.l

/-- `x[r] <- v` (R12). -/
def Block.writeReg (s : Block) (r : Reg8) (v : Byte) : Block :=
  match r with
  | .a => { s with a := v }
  | .b => { s with b := v }
  | .c => { s with c := v }
  | .d => { s with d := v }
  | .e => { s with e := v }
  | .h => { s with h := v }
  | .l => { s with l := v }

/-- `F <- f`, all four flags (R12). -/
def Block.writeFlags (s : Block) (f : Flags) : Block :=
  { s with f := f }

/-- `get_pair(p)`: a view, never stored (R29, R30). -/
def Block.getPair (s : Block) : Pair → Addr
  | .af => s.a ++ flagsToByte s.f
  | .bc => s.b ++ s.c
  | .de => s.d ++ s.e
  | .hl => s.h ++ s.l

/-- `v[15:8]`. -/
def highByte (v : Addr) : Byte := v.extractLsb' 8 8

/-- `v[7:0]`. -/
def lowByte (v : Addr) : Byte := v.extractLsb' 0 8

/-- `set_pair(p, v)`: R31 for bc, de, hl; R32 for af, under `AF_WRITE_MODE`. -/
def Block.setPair (mode : AfWriteMode) (s : Block) (p : Pair) (v : Addr) : Block :=
  match p with
  | .bc => (s.writeReg .b (highByte v)).writeReg .c (lowByte v)
  | .de => (s.writeReg .d (highByte v)).writeReg .e (lowByte v)
  | .hl => (s.writeReg .h (highByte v)).writeReg .l (lowByte v)
  | .af =>
    match mode with
    | .corrected => (s.writeReg .a (highByte v)).writeFlags (byteToFlags (lowByte v))
    | .sourceCompat => (s.writeReg .a (highByte v)).writeReg .c (lowByte v)

/-- `cond_true(cond, F)`: only Z and C are read (R160). -/
def condTrue (cond : Cond) (f : Flags) : Bool :=
  match cond with
  | .always => true
  | .nz => !f.z
  | .z => f.z
  | .nc => !f.c
  | .c => f.c

/-- The jump target `{hi, lo}` from the two bytes after the opcode at `pc`, low byte first (R57, R76, R161). -/
def jumpTarget (m : Memory) (pc : Addr) : Addr :=
  Memory.read m (pc + 2#16) ++ Memory.read m (pc + 1#16)

/-- The output ports of conditional_jump_mux (R160), with the addresses it reads, in order (R56). -/
structure JumpMuxOut where
  taken : Bool
  opndReq : Bool
  next : Addr
  reads : List Addr
deriving DecidableEq, Repr

/-- conditional_jump_mux (R160): the address bytes are requested only when the condition holds; else the jump's
three bytes are skipped unread (R161, D24). -/
def jumpMux (cond : Cond) (f : Flags) (pc : Addr) (m : Memory) : JumpMuxOut :=
  if condTrue cond f then
    { taken := true, opndReq := true, next := jumpTarget m pc, reads := [pc + 1#16, pc + 2#16] }
  else
    { taken := false, opndReq := false, next := pc + 3#16, reads := [] }

end Sys2Proof.Machine
end

