-- ==== Sys2Proof/Machine/Fetch.lean ====
section
/-! DEFINITION. fetch_decode_unit (R101 to R105) and program_counter_sequencer (R110, R111). -/

namespace Sys2Proof.Machine

/-- The answer of fetch_decode_unit: `fd_ok` with `fd_instr`, or the failure's two fields (R101). -/
inductive FetchResult where
  | decoded (i : Instr)
  | failure (opcode : Byte) (prefixed : Bool)
deriving DecidableEq, Repr

/-- The output ports of fetch_decode_unit (R101): the addresses it presents, in order, what it sends to the
decoder, and its answer. -/
structure FetchOut where
  reads : List Addr
  decOpcode : Byte
  decPrefixed : Bool
  result : FetchResult
deriving DecidableEq, Repr

/-- Take the decoder's answer for `(op, p)` (R104). -/
def fetchAnswer (op : Byte) (p : Bool) : FetchResult :=
  match decode op p with
  | some i => .decoded i
  | none => .failure op p

/-- fetch_decode_unit: one read at `pc`; if it is the prefix byte, one more at `pc +16 1`, decoded in the secondary
table whatever its value (R102 to R104). It writes no state and does not advance pc (R105). -/
def fetchDecode (m : Memory) (pc : Addr) : FetchOut :=
  let op0 := Memory.read m pc
  if op0 = prefixByte then
    let op := Memory.read m (pc + 1#16)
    { reads := [pc, pc + 1#16], decOpcode := op, decPrefixed := true, result := fetchAnswer op true }
  else
    { reads := [pc], decOpcode := op0, decPrefixed := false, result := fetchAnswer op0 false }

/-- The next pc of a successful step (R110). The second argument is `jmux_next`. -/
def nextPc (pc : Addr) (jmuxNext : Addr) : Form → Addr
  | .add _ => pc + 1#16
  | .jp _ => jmuxNext

/-- The output ports of program_counter_sequencer (R111). -/
structure SequencerOut where
  next : Addr
  pcWe : Bool
deriving DecidableEq, Repr

/-- program_counter_sequencer (R111): pc is loaded with R110's next pc when the fetch decoded an instruction, and
keeps its value when it failed. -/
def sequencer (pc : Addr) (fd : FetchResult) (jmuxNext : Addr) : SequencerOut :=
  match fd with
  | .decoded i => { next := nextPc pc jmuxNext i.form, pcWe := true }
  | .failure _ _ => { next := pc, pcWe := false }

/-- The addresses a step reads, in order (R56): those of the fetch, then those of the jump mux. -/
def stepReads (s : State) : List Addr :=
  let fd := fetchDecode s.mem s.pc
  fd.reads ++
    match fd.result with
    | .decoded i =>
      match i.form with
      | .add _ => []
      | .jp cond => (jumpMux cond s.f s.pc s.mem).reads
    | .failure _ _ => []

end Sys2Proof.Machine
end

