-- ==== Sys2Proof/Machine/RegFile.lean ====
section
/-! DEFINITION. The register_file_8bit interface (R34, R35): its read ports, and its core and host write ports.

A write enable with its data (and its select) is one `Option`: `none` is the enable at 0. -/

namespace Sys2Proof.Machine

/-- The read ports of R34, for a given `rd_sel` and `pair_rd_sel`. -/
structure ReadPorts where
  rdData : Byte
  aData : Byte
  flagsOut : Flags
  flagsByte : Byte
  pairRdData : Addr
deriving DecidableEq, Repr

/-- The read ports are functions of the state at the start of the step (R34). -/
def readPorts (s : Block) (rdSel : Reg8) (pairRdSel : Pair) : ReadPorts :=
  { rdData := s.readReg rdSel
    aData := s.a
    flagsOut := s.f
    flagsByte := flagsToByte s.f
    pairRdData := s.getPair pairRdSel }

/-- The write ports of R34: `a_we`, `flags_we` (core); `reg_we`, `pair_we` (host). -/
structure WritePorts where
  aWrite : Option Byte := none
  flagsWrite : Option Flags := none
  regWrite : Option (Reg8 × Byte) := none
  pairWrite : Option (Pair × Addr) := none
deriving DecidableEq, Repr

/-- A request outside the interface: a core and a host write port together, or both host write ports (R35). -/
def WritePorts.conflict (w : WritePorts) : Bool :=
  ((w.aWrite.isSome || w.flagsWrite.isSome) && (w.regWrite.isSome || w.pairWrite.isSome))
    || (w.regWrite.isSome && w.pairWrite.isSome)

/-- What the asserted ports write, at the end of the step (R34). -/
def applyPorts (mode : AfWriteMode) (w : WritePorts) (s : Block) : Block :=
  let s1 := match w.aWrite with
    | some v => s.writeReg .a v
    | none => s
  let s2 := match w.flagsWrite with
    | some f => s1.writeFlags f
    | none => s1
  let s3 := match w.regWrite with
    | some (r, v) => s2.writeReg r v
    | none => s2
  match w.pairWrite with
  | some (p, v) => s3.setPair mode p v
  | none => s3

/-- A write request to the register file; one outside the interface is refused (R35). -/
def portWrite (mode : AfWriteMode) (w : WritePorts) (s : Block) : Host.Outcome Block Fault Refusal :=
  if w.conflict then .refused .portConflict else .next (applyPorts mode w s)

end Sys2Proof.Machine
end

