-- ==== Sys2Proof/Machine/Add.lean ====
section
/-! DEFINITION. ADD A,r: the common execute rule (R131) and the seven instructions (R132 to R138). -/

namespace Sys2Proof.Machine

/-- `ADD_execute(r)` (R131): both operands are read at the start of the step; a and all four flags are written,
always together (R35), and pc takes the sequencer's `pc +16 1`. It cannot fail. -/
def addExecute (r : Reg8) (s : Block) : Block :=
  let alu := add8 s.a (s.readReg r)
  ((s.writeReg .a alu.res).writeFlags alu.flags).setPc (nextPc s.pc s.pc (.add r))

/-- ADD A,B (R132). -/
def execAddAB (s : State) : Host.Outcome State Fault Refusal :=
  .next (s.withBlock (addExecute .b s.toBlock))

/-- ADD A,C (R133). -/
def execAddAC (s : State) : Host.Outcome State Fault Refusal :=
  .next (s.withBlock (addExecute .c s.toBlock))

/-- ADD A,D (R134). -/
def execAddAD (s : State) : Host.Outcome State Fault Refusal :=
  .next (s.withBlock (addExecute .d s.toBlock))

/-- ADD A,E (R135). -/
def execAddAE (s : State) : Host.Outcome State Fault Refusal :=
  .next (s.withBlock (addExecute .e s.toBlock))

/-- ADD A,H (R136). -/
def execAddAH (s : State) : Host.Outcome State Fault Refusal :=
  .next (s.withBlock (addExecute .h s.toBlock))

/-- ADD A,L (R137). -/
def execAddAL (s : State) : Host.Outcome State Fault Refusal :=
  .next (s.withBlock (addExecute .l s.toBlock))

/-- ADD A,A (R138). -/
def execAddAA (s : State) : Host.Outcome State Fault Refusal :=
  .next (s.withBlock (addExecute .a s.toBlock))

end Sys2Proof.Machine
end

