-- ==== Sys2Proof/Machine/Jump.lean ====
section
/-! DEFINITION. JP: the common execute rule (R161) and the five instructions (R162 to R166). -/

namespace Sys2Proof.Machine

/-- `JP_execute(cond)` (R161), over the memory answers of the step: only pc is written, with the mux's answer. It cannot fail, and any target is legal
(R39). -/
def jpExecute (cond : Cond) (s : Block) (m : Memory) : Block :=
  s.setPc (nextPc s.pc (jumpMux cond s.f s.pc m).next (.jp cond))

/-- JP nn (R162). -/
def execJpNN (s : State) : Host.Outcome State Fault Refusal :=
  .next (s.withBlock (jpExecute .always s.toBlock s.mem))

/-- JP NZ,nn (R163). -/
def execJpNzNN (s : State) : Host.Outcome State Fault Refusal :=
  .next (s.withBlock (jpExecute .nz s.toBlock s.mem))

/-- JP Z,nn (R164). -/
def execJpZNN (s : State) : Host.Outcome State Fault Refusal :=
  .next (s.withBlock (jpExecute .z s.toBlock s.mem))

/-- JP NC,nn (R165). -/
def execJpNcNN (s : State) : Host.Outcome State Fault Refusal :=
  .next (s.withBlock (jpExecute .nc s.toBlock s.mem))

/-- JP C,nn (R166). -/
def execJpCNN (s : State) : Host.Outcome State Fault Refusal :=
  .next (s.withBlock (jpExecute .c s.toBlock s.mem))

end Sys2Proof.Machine
end

