-- ==== Sys2Proof/Machine/Dispatch.lean ====
section
/-! DEFINITION. One arm per instruction (R107, phase 2). -/

namespace Sys2Proof.Machine

def exec (i : Instr) (s : State) : Host.Outcome State Fault Refusal :=
  match i with
  | .addAB => Sys2Proof.Machine.execAddAB s
  | .addAC => Sys2Proof.Machine.execAddAC s
  | .addAD => Sys2Proof.Machine.execAddAD s
  | .addAE => Sys2Proof.Machine.execAddAE s
  | .addAH => Sys2Proof.Machine.execAddAH s
  | .addAL => Sys2Proof.Machine.execAddAL s
  | .addAA => Sys2Proof.Machine.execAddAA s
  | .jpNN => Sys2Proof.Machine.execJpNN s
  | .jpNzNN => Sys2Proof.Machine.execJpNzNN s
  | .jpZNN => Sys2Proof.Machine.execJpZNN s
  | .jpNcNN => Sys2Proof.Machine.execJpNcNN s
  | .jpCNN => Sys2Proof.Machine.execJpCNN s

end Sys2Proof.Machine
end

