-- ==== Sys2Proof/Machine/Step.lean ====
section
/-! DEFINITION. The whole step (R107), and how a table word is placed where it fetches. -/

namespace Sys2Proof.Machine

/-- One step (R100, R107): fetch and decode at pc, then execute, or raise the decode failure. The meaning's next
state already holds the sequencer's next pc (R110, R112), and all its writes land together (R108). -/
def step (s : State) : Host.Outcome State Fault Refusal :=
  match (fetchDecode s.mem s.pc).result with
  | .decoded i => exec i s
  | .failure opcode isPrefixed => raiseDecodeFailure opcode isPrefixed

/-- `step(S, MEM)` with the memory device's answers given for this step alone (R55, R107). -/
def stepUnder (m : Memory) (s : State) : Host.Outcome State Fault Refusal :=
  step { s with mem := m }

/-- The state with a table word's bytes stored at pc, where the next step fetches (log entry 5). -/
def State.withFetchWord (s : State) (nbits w : Nat) : State :=
  { s with mem := Memory.writeBytes s.mem s.pc (tableBytes nbits w) }

end Sys2Proof.Machine
end

