-- ==== Sys2Proof/Machine/BlockStep.lean ====
section
/-! DEFINITION. R107's `step(S, MEM)`, on R43's state alone, with the memory device's answers as its input.

The host's `step` is this step on a block and the memory beside it; that the two agree is a statement
(`Obligations.StepIsTheBlockStep`). -/

namespace Sys2Proof.Machine

/-- Phase 2 of R107: the execute rule of the decoded instruction's form, its writes to the block all at once. -/
def executeForm (form : Form) (s : Block) (m : Memory) : Block :=
  match form with
  | .add r => addExecute r s
  | .jp cond => jpExecute cond s m

/-- `step(S, MEM)` (R107): the memory answers of this step are an input and not state (R43, R50, R55). -/
def blockStep (s : Block) (m : Memory) : Host.Outcome Block Fault Refusal :=
  match (fetchDecode m s.pc).result with
  | .decoded i => .next (executeForm i.form s m)
  | .failure opcode isPrefixed => raiseDecodeFailure opcode isPrefixed

end Sys2Proof.Machine
end

