-- ==== Sys2Proof/Machine/Driver.lean ====
section
/-! DEFINITION. The driver interface: what the host may do to the block, and what it is told (R106, R114, D23).

A fault of `step` carries no state; here the state after it is said: the one the step began in (R191). -/

namespace Sys2Proof.Machine

/-- What the host may do (D23). There is no write of pc but by reset, and every action stands between two steps. -/
inductive DriverAction where
  /-- Reset the block, for a new session (R210). -/
  | reset
  /-- Call `step` (R114). -/
  | step
  /-- Write registers through the host ports `reg_we` and `pair_we` (R34, R35). -/
  | hostWrite (reg : Option (Reg8 × Byte)) (pair : Option (Pair × Addr))
  /-- Change what the memory device answers at some addresses (R55, R66). -/
  | changeMemory (cells : List (Addr × Byte))
deriving DecidableEq, Repr

/-- What the host is told: R106's two outcomes of a step, and the refusal of a request outside the interface. -/
inductive DriverReport where
  | ok
  | decodeFailure (opcode : Byte) (prefixed : Bool)
  | refused (r : Refusal)
deriving DecidableEq, Repr

/-- An outcome as the host sees it, with the state it leaves. After a decode failure that is the old state (R191).
DESIGN CHOICE, log entry 14: after a refused request it is the old state too, and the session goes on; the spec says
only that a model refuses such a request (R35, U8) and gives no state after it. -/
def settleOutcome {σ : Type} (s : σ) : Host.Outcome σ Fault Refusal → DriverReport × σ
  | .next t => (.ok, t)
  | .fault (.decodeFailure opcode isPrefixed) => (.decodeFailure opcode isPrefixed, s)
  | .refused r => (.refused r, s)

/-- One action of the host. -/
def drive (p : Params) (s : State) : DriverAction → DriverReport × State
  | .reset => (.ok, State.resetWith p s.mem)
  | .step => settleOutcome s (step s)
  | .hostWrite reg pair =>
    let (report, block) :=
      settleOutcome s.toBlock (portWrite p.afWriteMode { regWrite := reg, pairWrite := pair } s.toBlock)
    (report, s.withBlock block)
  | .changeMemory cells => (.ok, { s with mem := Memory.writeCells s.mem cells })

/-- A session: actions in order, the reports they give and the state they leave. A failure does not end it: the
caller may change memory or step again (R193, R199). -/
def driveAll (p : Params) (s : State) : List DriverAction → List DriverReport × State
  | [] => ([], s)
  | act :: rest =>
    let (report, t) := drive p s act
    let (reports, u) := driveAll p t rest
    (report :: reports, u)

end Sys2Proof.Machine
end

