-- ==== Sys2Proof/Safety.lean ====
section
/-! DEFINITION. How a run ends (R115, R200). -/

namespace Sys2Proof.Machine

/-- R115's halt: pc holds a JP nn whose target is its own address. -/
def selfJump (s : State) : Bool :=
  decide (Memory.read s.mem s.pc = 0xC3#8) && decide (jumpTarget s.mem s.pc = s.pc)

/-- What a run of at most some number of steps comes to. -/
inductive RunEnd where
  /-- Neither end was reached within the bound. -/
  | running (s : State)
  /-- It halted at a self-jump (R115). -/
  | halted (s : State)
  /-- A step returned the decode failure; the state is the one that step left unchanged (R115, R200). -/
  | failed (opcode : Byte) (prefixed : Bool) (s : State)
  /-- A step was refused. No step of this model is. -/
  | refused (r : Refusal)
deriving DecidableEq, Repr

/-- The run from a state, to its end or for `n` steps, under constant memory answers (R115). -/
def runEnd : Nat → State → RunEnd
  | 0, s => .running s
  | n + 1, s =>
    if selfJump s then .halted s
    else match step s with
      | .next t => runEnd n t
      | .fault (.decodeFailure opcode isPrefixed) => .failed opcode isPrefixed s
      | .refused r => .refused r

/-- A safe run never meets a refusal: every step is R106's `Ok` or `DecodeFailure`. -/
def SafeRun (n : Nat) (s : State) : Prop :=
  ∀ r, runEnd n s ≠ .refused r

end Sys2Proof.Machine
end

