-- ==== Sys2Proof/Certificates/Slice0/Obligations.lean ====
section
/-! DEFINITION. The statements for the provers, from the spec's numbered rules. -/

open Sys2Proof Sys2Proof.Machine

/-! ## Shapes shared by the statements of one instruction family -/

/-- One ADD A,r: its one-byte encoding, decoded and encoded, and its whole effect on every state (R131). `src` is
the source register. The arithmetic is written out on natural numbers, not by the model's ALU. -/
def Sys2Proof.Statements.AddRule (opcode : Byte) (i : Instr) (src : State → Byte) : Prop :=
  decode opcode false = some i ∧ encode { instr := i, operand := [] } = [opcode] ∧
  ∀ s : State, exec i s = .next { s with
    a := BitVec.ofNat 8 (s.a.toNat + (src s).toNat)
    f := { z := decide ((s.a.toNat + (src s).toNat) % 256 = 0)
           n := false
           h := decide (s.a.toNat % 16 + (src s).toNat % 16 > 15)
           c := decide (s.a.toNat + (src s).toNat > 255) }
    pc := s.pc + 1#16 }

/-- The worked example of an ADD A,r rule: from these values, these values. -/
def Sys2Proof.Statements.AddExample (i : Instr) (src : State → Byte) (a v : Byte) (pc : Addr)
    (a' v' : Byte) (f' : Flags) (pc' : Addr) : Prop :=
  ∀ s : State, s.a = a → src s = v → s.pc = pc →
    ∃ t, exec i s = .next t ∧ t.a = a' ∧ src t = v' ∧ t.f = f' ∧ t.pc = pc'

/-- One JP: its three-byte encoding for every target, and its whole effect on every state (R161). `taken` is the
condition on the flags. -/
def Sys2Proof.Statements.JumpRule (opcode : Byte) (i : Instr) (taken : Flags → Bool) : Prop :=
  decode opcode false = some i ∧
  (∀ lo hi : Byte, encode { instr := i, operand := [lo, hi] } = [opcode, lo, hi]) ∧
  ∀ s : State, exec i s = .next { s with
    pc := if taken s.f then Memory.read s.mem (s.pc + 2#16) ++ Memory.read s.mem (s.pc + 1#16)
          else s.pc + 3#16 }

/-- The worked example of a JP rule: with these address bytes, from this pc to that one, nothing else changed. -/
def Sys2Proof.Statements.JumpExample (i : Instr) (when : Flags → Prop) (pc : Addr) (lo hi : Byte) (pc' : Addr) : Prop :=
  ∀ s : State, when s.f → s.pc = pc → Memory.read s.mem (pc + 1#16) = lo → Memory.read s.mem (pc + 2#16) = hi →
    exec i s = .next { s with pc := pc' }

/-- What no ADD A,r changes: every register but a and F, and every byte of memory; pc may change. -/
def Sys2Proof.Statements.AddFrame (i : Instr) : Prop :=
  ∀ s t : State, exec i s = .next t →
    t.b = s.b ∧ t.c = s.c ∧ t.d = s.d ∧ t.e = s.e ∧ t.h = s.h ∧ t.l = s.l ∧
    ∀ addr, Memory.read t.mem addr = Memory.read s.mem addr

/-- What no JP changes: every register, every flag, and every byte of memory; pc may change. -/
def Sys2Proof.Statements.JumpFrame (i : Instr) : Prop :=
  ∀ s t : State, exec i s = .next t →
    (∀ r : Reg8, t.readReg r = s.readReg r) ∧ t.f = s.f ∧
    ∀ addr, Memory.read t.mem addr = Memory.read s.mem addr

/-! ## Reset -/

/-- R210, R42: reset loads every register, the flags and pc from the parameters and leaves memory alone; so does
the driver's reset. -/
def Obligations.ResetLoadsItsParameters : Prop :=
  (∀ (p : Params) (m : Memory),
    State.resetWith p m =
      { a := p.resetRegs.a, b := p.resetRegs.b, c := p.resetRegs.c, d := p.resetRegs.d, e := p.resetRegs.e,
        h := p.resetRegs.h, l := p.resetRegs.l,
        f := { z := p.resetRegs.f.z, n := p.resetRegs.f.n, h := p.resetRegs.f.h, c := p.resetRegs.f.c },
        pc := p.entryPc, mem := m }) ∧
  ∀ (p : Params) (s : State), drive p s .reset = (.ok, State.resetWith p s.mem)

/-- R211: the two named reset profiles; ZEROED leaves the entry address open. -/
def Obligations.ResetProfilesHoldTheirValues : Prop :=
  (∀ (entry : Addr) (mode : AfWriteMode) (m : Memory),
    State.resetWith { resetRegs := ResetRegs.zeroed, entryPc := entry, afWriteMode := mode } m =
      { a := 0x00#8, b := 0x00#8, c := 0x00#8, d := 0x00#8, e := 0x00#8, h := 0x00#8, l := 0x00#8,
        f := { z := false, n := false, h := false, c := false }, pc := entry, mem := m }) ∧
  (∀ (mode : AfWriteMode) (m : Memory),
    State.resetWith { resetRegs := ResetRegs.dmgPostBoot, entryPc := 0x0100#16, afWriteMode := mode } m =
      { a := 0x01#8, b := 0x00#8, c := 0x13#8, d := 0x00#8, e := 0xD8#8, h := 0x01#8, l := 0x4D#8,
        f := { z := true, n := false, h := true, c := true }, pc := 0x0100#16, mem := m })

/-- The MODEL'S CHOICE, no rule of the spec (log entries 1 and 3): the state after reset is R211's DMG_POST_BOOT
with no memory byte listed, and that memory is canonical. -/
def Obligations.ResetStateIsPostBootProfile : Prop :=
  State.reset =
    { a := 0x01#8, b := 0x00#8, c := 0x13#8, d := 0x00#8, e := 0xD8#8, h := 0x01#8, l := 0x4D#8,
      f := { z := true, n := false, h := true, c := true }, pc := 0x0100#16, mem := [] } ∧
  State.wf State.reset = true

/-- R213: once the block is reset and the memory device answers with a program's first instruction at `ENTRY_PC`,
the first step runs it; nothing else needs initialising. -/
def Obligations.FirstStepAfterResetRunsTheProgram : Prop :=
  ∀ (p : Params) (s : State) (i : Instr), decode (Memory.read s.mem p.entryPc) false = some i →
    step (drive p s .reset).2 = exec i (State.resetWith p s.mem)

/-! ## Flags and register pairs -/

/-- R24: bits 7 to 4 of the packed form are Z, N, H, C, and bits 3 to 0 are 0. -/
def Obligations.FlagsPackIntoHighNibble : Prop :=
  ∀ f : Flags, flagsToByte f =
    (if f.z then 0x80#8 else 0#8) ||| (if f.n then 0x40#8 else 0#8) ||| (if f.h then 0x20#8 else 0#8) |||
      (if f.c then 0x10#8 else 0#8) ∧
    (flagsToByte f) &&& 0x0F#8 = 0#8

/-- R25: each flag is its bit, bits 3 to 0 are ignored. -/
def Obligations.ByteUnpacksToFlags : Prop :=
  (∀ v : Byte, byteToFlags v =
    { z := v.getLsbD 7, n := v.getLsbD 6, h := v.getLsbD 5, c := v.getLsbD 4 }) ∧
  ∀ v w : Byte, v &&& 0xF0#8 = w &&& 0xF0#8 → byteToFlags v = byteToFlags w

/-- R26, its three laws. -/
def Obligations.FlagPackingLaws : Prop :=
  (∀ f : Flags, byteToFlags (flagsToByte f) = f) ∧
  (∀ v : Byte, flagsToByte (byteToFlags v) = v &&& 0xF0#8) ∧
  (∀ x : Byte, byteToFlags (flagsToByte (byteToFlags x)) = byteToFlags x)

/-- R28 to R30: a pair read is the two halves as they now are, whatever was written before. That the low nibble of af
reads 0 is R30's last sentence, which the spec marks as derived from R24. -/
def Obligations.PairReadsItsTwoHalves : Prop :=
  (∀ s : Block,
    s.getPair .af = s.a ++ flagsToByte s.f ∧ s.getPair .bc = s.b ++ s.c ∧
    s.getPair .de = s.d ++ s.e ∧ s.getPair .hl = s.h ++ s.l) ∧
  (∀ s : Block, (s.getPair .af) &&& 0x000F#16 = 0#16) ∧
  ∀ (s : Block) (v : Byte),
    (s.writeReg .a v).getPair .af = v ++ flagsToByte s.f ∧
    (s.writeReg .b v).getPair .bc = v ++ s.c ∧ (s.writeReg .c v).getPair .bc = s.b ++ v ∧
    (s.writeReg .d v).getPair .de = v ++ s.e ∧ (s.writeReg .e v).getPair .de = s.d ++ v ∧
    (s.writeReg .h v).getPair .hl = v ++ s.l ∧ (s.writeReg .l v).getPair .hl = s.h ++ v ∧
    ∀ g : Flags, (s.writeFlags g).getPair .af = s.a ++ flagsToByte g

/-- R31, R32: what a pair write writes, and that it writes nothing else, in both modes. -/
def Obligations.PairWriteWritesItsTwoHalves : Prop :=
  ∀ (s : Block) (v : Addr),
    (∀ mode, s.setPair mode .bc v = { s with b := v.extractLsb' 8 8, c := v.extractLsb' 0 8 }) ∧
    (∀ mode, s.setPair mode .de v = { s with d := v.extractLsb' 8 8, e := v.extractLsb' 0 8 }) ∧
    (∀ mode, s.setPair mode .hl v = { s with h := v.extractLsb' 8 8, l := v.extractLsb' 0 8 }) ∧
    s.setPair .corrected .af v = { s with a := v.extractLsb' 8 8, f := byteToFlags (v.extractLsb' 0 8) } ∧
    s.setPair .sourceCompat .af v = { s with a := v.extractLsb' 8 8, c := v.extractLsb' 0 8 }

/-- R33, its three laws: the round trip of bc, de, hl; of af under `corrected` up to the low nibble; and what
`source_compat` leaves. Each with the registers it does not change. -/
def Obligations.PairPortLaws : Prop :=
  (∀ (mode : AfWriteMode) (s : Block) (v : Addr) (p : Pair), p ≠ .af →
    (s.setPair mode p v).getPair p = v ∧ (s.setPair mode p v).f = s.f ∧ (s.setPair mode p v).a = s.a ∧
    ∀ q : Pair, q ≠ p → (s.setPair mode p v).getPair q = s.getPair q) ∧
  (∀ (s : Block) (v : Addr),
    (s.setPair .corrected .af v).getPair .af = v &&& 0xFFF0#16 ∧
    ∀ r : Reg8, r ≠ .a → (s.setPair .corrected .af v).readReg r = s.readReg r) ∧
  (∀ (s : Block) (v : Addr),
    (s.setPair .sourceCompat .af v).a = v.extractLsb' 8 8 ∧
    (s.setPair .sourceCompat .af v).c = v.extractLsb' 0 8 ∧
    (s.setPair .sourceCompat .af v).f = s.f ∧
    (s.setPair .sourceCompat .af v).getPair .af = v.extractLsb' 8 8 ++ flagsToByte s.f)

/-- R34's ports: what each read port answers, and what each write port alone writes; and that the driver's host write
is a request on the two host ports in the session's `AF_WRITE_MODE`, which leaves the block the request gives and the
memory as it was. Two things are the MODEL'S CHOICE: that a_we alone and flags_we alone are taken (DESIGN CHOICE, log
entry 11; in a step the core asserts both together, R35), and that a refused request leaves the old state (DESIGN
CHOICE, log entry 14). -/
def Obligations.RegisterFilePorts : Prop :=
  (∀ (s : Block) (r : Reg8) (p : Pair),
    readPorts s r p =
      { rdData := s.readReg r, aData := s.a, flagsOut := s.f, flagsByte := flagsToByte s.f,
        pairRdData := s.getPair p }) ∧
  (∀ (mode : AfWriteMode) (s : Block),
    portWrite mode { } s = .next s ∧
    (∀ v : Byte, portWrite mode { aWrite := some v } s = .next { s with a := v }) ∧
    (∀ g : Flags, portWrite mode { flagsWrite := some g } s = .next { s with f := g }) ∧
    (∀ (p : Pair) (v : Addr), portWrite mode { pairWrite := some (p, v) } s = .next (s.setPair mode p v)) ∧
    ∀ (r : Reg8) (v : Byte), ∃ t, portWrite mode { regWrite := some (r, v) } s = .next t ∧
      t.readReg r = v ∧ (∀ q : Reg8, q ≠ r → t.readReg q = s.readReg q) ∧
      t.f = s.f ∧ t.pc = s.pc) ∧
  ∀ (p : Params) (s : State) (reg : Option (Reg8 × Byte)) (pair : Option (Pair × Addr)),
    (drive p s (.hostWrite reg pair)).2.mem = s.mem ∧
    (∀ block, portWrite p.afWriteMode { regWrite := reg, pairWrite := pair } s.toBlock = .next block →
      drive p s (.hostWrite reg pair) = (.ok, { toBlock := block, mem := s.mem })) ∧
    (reg ≠ none ∧ pair ≠ none → drive p s (.hostWrite reg pair) = (.refused .portConflict, s))

/-- A step uses the core's two write ports only, together and in an add only, and a request outside the interface
is refused (R35). That every other request is taken, one core port alone included, is the MODEL'S CHOICE (DESIGN
CHOICE, log entry 11). -/
def Obligations.WritePortsOfAStep : Prop :=
  (∀ (mode : AfWriteMode) (s t : State) (i : Instr), (fetchDecode s.mem s.pc).result = .decoded i → step s = .next t →
    match i.form with
    | .add _ => ∃ (v : Byte) (g : Flags),
        portWrite mode { aWrite := some v, flagsWrite := some g } s.toBlock = .next { t.toBlock with pc := s.pc }
    | .jp _ => portWrite mode { } s.toBlock = .next { t.toBlock with pc := s.pc }) ∧
  ∀ (mode : AfWriteMode) (w : WritePorts) (s : Block),
    ((w.regWrite ≠ none ∨ w.pairWrite ≠ none) ∧ (w.aWrite ≠ none ∨ w.flagsWrite ≠ none) ∨
        w.regWrite ≠ none ∧ w.pairWrite ≠ none →
      portWrite mode w s = .refused .portConflict) ∧
    (w.regWrite = none ∧ w.pairWrite = none ∨
        w.aWrite = none ∧ w.flagsWrite = none ∧ (w.regWrite = none ∨ w.pairWrite = none) →
      ∃ t, portWrite mode w s = .next t)

/-! ## The ALU and ADD A,r -/

/-- R130: the result and the four flags of the 8-bit add. -/
def Obligations.AluAddsWithFlags : Prop :=
  ∀ x y : Byte,
    (add8 x y).res.toNat = (x.toNat + y.toNat) % 256 ∧
    (add8 x y).flags.z = decide ((x.toNat + y.toNat) % 256 = 0) ∧
    (add8 x y).flags.n = false ∧
    (add8 x y).flags.h = decide ((x &&& 0x0F#8).toNat + (y &&& 0x0F#8).toNat > 0x0F) ∧
    (add8 x y).flags.c = decide (x.toNat + y.toNat > 0xFF)

/-- R139, its laws: exactness, the half-carry as bit 4 of an exclusive or, commutativity, identity. -/
def Obligations.AluIntegerLaws : Prop :=
  ∀ x y : Byte,
    x.toNat + y.toNat = (add8 x y).res.toNat + 256 * (add8 x y).flags.c.toNat ∧
    (add8 x y).flags.h = (x ^^^ y ^^^ (add8 x y).res).getLsbD 4 ∧
    (add8 x y).flags.h = (BitVec.setWidth 5 (x.extractLsb' 0 4) + BitVec.setWidth 5 (y.extractLsb' 0 4)).getLsbD 4 ∧
    add8 x y = add8 y x ∧
    add8 x 0#8 = { res := x, flags := { z := decide (x = 0#8), n := false, h := false, c := false } }

/-- R131 to R138: for each of the seven adds its encoding, its whole effect on every state, its worked example; and
for ADD A,A that H is bit 3 of a, C is bit 7, and the result is a shifted left by one. That H and C of ADD A,A are
those bits is what R138 marks as derived, from R130 with both operands equal. -/
def Obligations.AddInstructionsExecute : Prop :=
  (Statements.AddRule 0x80#8 .addAB (·.b) ∧ Statements.AddRule 0x81#8 .addAC (·.c) ∧
    Statements.AddRule 0x82#8 .addAD (·.d) ∧ Statements.AddRule 0x83#8 .addAE (·.e) ∧
    Statements.AddRule 0x84#8 .addAH (·.h) ∧ Statements.AddRule 0x85#8 .addAL (·.l) ∧
    Statements.AddRule 0x87#8 .addAA (·.a)) ∧
  (Statements.AddExample .addAB (·.b) 0x0F#8 0x01#8 0x0100#16 0x10#8 0x01#8 ⟨false, false, true, false⟩ 0x0101#16 ∧
    Statements.AddExample .addAC (·.c) 0xFF#8 0x01#8 0x0200#16 0x00#8 0x01#8 ⟨true, false, true, true⟩ 0x0201#16 ∧
    Statements.AddExample .addAD (·.d) 0x00#8 0x00#8 0x0000#16 0x00#8 0x00#8 ⟨true, false, false, false⟩ 0x0001#16 ∧
    Statements.AddExample .addAE (·.e) 0x80#8 0x80#8 0x1000#16 0x00#8 0x80#8 ⟨true, false, false, true⟩ 0x1001#16 ∧
    Statements.AddExample .addAH (·.h) 0x3A#8 0xC6#8 0x2000#16 0x00#8 0xC6#8 ⟨true, false, true, true⟩ 0x2001#16 ∧
    Statements.AddExample .addAL (·.l) 0x7F#8 0x01#8 0xFFFF#16 0x80#8 0x01#8 ⟨false, false, true, false⟩ 0x0000#16 ∧
    Statements.AddExample .addAA (·.a) 0x88#8 0x88#8 0x0300#16 0x10#8 0x10#8 ⟨false, false, true, true⟩ 0x0301#16) ∧
  ∀ s t : State, exec .addAA s = .next t →
    t.a = s.a <<< 1 ∧ t.f.h = s.a.getLsbD 3 ∧ t.f.c = s.a.getLsbD 7

/-- The frame of the seven adds: b, c, d, e, h, l and every byte of memory are unchanged. The destination is a, and
all four flags and pc are written (R131). -/
def Obligations.AddInstructionsFrame : Prop :=
  Statements.AddFrame .addAB ∧ Statements.AddFrame .addAC ∧ Statements.AddFrame .addAD ∧
  Statements.AddFrame .addAE ∧ Statements.AddFrame .addAH ∧ Statements.AddFrame .addAL ∧ Statements.AddFrame .addAA

/-! ## The jumps -/

/-- R160: the five conditions, and the mux's outputs; N and H do not matter. -/
def Obligations.JumpMuxSelects : Prop :=
  (∀ f : Flags, condTrue .always f = true ∧ condTrue .nz f = !f.z ∧ condTrue .z f = f.z ∧
    condTrue .nc f = !f.c ∧ condTrue .c f = f.c) ∧
  ∀ (cond : Cond) (f : Flags) (pc : Addr) (m : Memory),
    (jumpMux cond f pc m).taken = condTrue cond f ∧
    (jumpMux cond f pc m).opndReq = condTrue cond f ∧
    (jumpMux cond f pc m).next =
      (if condTrue cond f then Memory.read m (pc + 2#16) ++ Memory.read m (pc + 1#16) else pc + 3#16) ∧
    (jumpMux cond f pc m).reads = (if condTrue cond f then [pc + 1#16, pc + 2#16] else [])

/-- R57, R76: the target is the number whose low byte is at pc + 1 and whose high byte is at pc + 2. -/
def Obligations.JumpTargetIsLittleEndian : Prop :=
  ∀ (m : Memory) (pc : Addr),
    (jumpTarget m pc).toNat = 256 * (Memory.read m (pc + 2#16)).toNat + (Memory.read m (pc + 1#16)).toNat

/-- R162 to R166: for each of the five jumps its encoding, its whole effect on every state, its worked examples,
and the corner cases R162 (address bytes over the wrap) and R165 (not taken at 0xFFFE) name. -/
def Obligations.JumpInstructionsExecute : Prop :=
  (Statements.JumpRule 0xC3#8 .jpNN (fun _ => true) ∧ Statements.JumpRule 0xC2#8 .jpNzNN (fun f => !f.z) ∧
    Statements.JumpRule 0xCA#8 .jpZNN (fun f => f.z) ∧ Statements.JumpRule 0xD2#8 .jpNcNN (fun f => !f.c) ∧
    Statements.JumpRule 0xDA#8 .jpCNN (fun f => f.c)) ∧
  (Statements.JumpExample .jpNN (fun _ => True) 0x0150#16 0x34#8 0x12#8 0x1234#16 ∧
    Statements.JumpExample .jpNzNN (fun f => f.z = false) 0x0400#16 0x00#8 0x08#8 0x0800#16 ∧
    Statements.JumpExample .jpNzNN (fun f => f.z = true) 0x0400#16 0x00#8 0x08#8 0x0403#16 ∧
    Statements.JumpExample .jpZNN (fun f => f.z = true) 0x0400#16 0x00#8 0x08#8 0x0800#16 ∧
    Statements.JumpExample .jpZNN (fun f => f.z = false) 0x0400#16 0x00#8 0x08#8 0x0403#16 ∧
    Statements.JumpExample .jpNcNN (fun f => f.c = false) 0x0400#16 0x00#8 0x08#8 0x0800#16 ∧
    Statements.JumpExample .jpNcNN (fun f => f.c = true) 0x0400#16 0x00#8 0x08#8 0x0403#16 ∧
    Statements.JumpExample .jpCNN (fun f => f.c = true) 0x0400#16 0x00#8 0x08#8 0x0800#16 ∧
    Statements.JumpExample .jpCNN (fun f => f.c = false) 0x0400#16 0x00#8 0x08#8 0x0403#16) ∧
  (∀ s : State, s.pc = 0xFFFE#16 →
    exec .jpNN s = .next { s with pc := Memory.read s.mem 0x0000#16 ++ Memory.read s.mem 0xFFFF#16 }) ∧
  ∀ s : State, s.pc = 0xFFFE#16 → s.f.c = true → exec .jpNcNN s = .next { s with pc := 0x0001#16 }

/-- The frame of the five jumps: every register, every flag and every byte of memory is unchanged. -/
def Obligations.JumpInstructionsFrame : Prop :=
  Statements.JumpFrame .jpNN ∧ Statements.JumpFrame .jpNzNN ∧ Statements.JumpFrame .jpZNN ∧
  Statements.JumpFrame .jpNcNN ∧ Statements.JumpFrame .jpCNN

/-! ## Decoding and encoding -/

/-- R78: the base table's pure function, by the values of the opcode byte, and that it admits these twelve bytes
and no other. -/
def Obligations.BaseTableAdmitsTwelveBytes : Prop :=
  decode 0x80#8 false = some .addAB ∧ decode 0x81#8 false = some .addAC ∧ decode 0x82#8 false = some .addAD ∧
  decode 0x83#8 false = some .addAE ∧ decode 0x84#8 false = some .addAH ∧ decode 0x85#8 false = some .addAL ∧
  decode 0x87#8 false = some .addAA ∧ decode 0xC3#8 false = some .jpNN ∧ decode 0xC2#8 false = some .jpNzNN ∧
  decode 0xCA#8 false = some .jpZNN ∧ decode 0xD2#8 false = some .jpNcNN ∧ decode 0xDA#8 false = some .jpCNN ∧
  ∀ op : Byte, (decode op false).isSome = true →
    op ∈ [0x80#8, 0x81#8, 0x82#8, 0x83#8, 0x84#8, 0x85#8, 0x87#8, 0xC2#8, 0xC3#8, 0xCA#8, 0xD2#8, 0xDA#8]

/-- R79, R80: the secondary table admits no byte, and the base table does not admit the prefix byte. -/
def Obligations.SecondaryTableIsEmpty : Prop :=
  (∀ op : Byte, decode op true = none) ∧ decode 0xCB#8 false = none

/-- R85's counts: 244 misses in the base table, 256 in the secondary table. -/
def Obligations.TableMissCounts : Prop :=
  ((List.range 256).filter fun n => (decode (BitVec.ofNat 8 n) false).isNone).length = 244 ∧
  ((List.range 256).filter fun n => (decode (BitVec.ofNat 8 n) true).isNone).length = 256

/-- R74, R75: the `r` field's eight values, 0b110 admitting none, and the `cc` field's four. -/
def Obligations.OperandFieldsSelect : Prop :=
  (regOfField 0b000#3 = some .b ∧ regOfField 0b001#3 = some .c ∧ regOfField 0b010#3 = some .d ∧
    regOfField 0b011#3 = some .e ∧ regOfField 0b100#3 = some .h ∧ regOfField 0b101#3 = some .l ∧
    regOfField 0b110#3 = none ∧ regOfField 0b111#3 = some .a) ∧
  (condOfField 0b00#2 = .nz ∧ condOfField 0b01#2 = .z ∧ condOfField 0b10#2 = .nc ∧ condOfField 0b11#2 = .c) ∧
  (∀ r : BitVec 3, decode (0b10000#5 ++ r) false = (regOfField r).map fun q => instrOfForm (.add q)) ∧
  (∀ cc : BitVec 2, decode (0b110#3 ++ cc ++ 0b010#3) false = some (instrOfForm (.jp (condOfField cc)))) ∧
  decode 0xC3#8 false = some (instrOfForm (.jp .always))

/-- R83: the twelve instructions are exactly the values of the two-variant type. -/
def Obligations.InstructionsAreTheTwoForms : Prop :=
  (∀ i : Instr, instrOfForm i.form = i) ∧ (∀ f : Form, (instrOfForm f).form = f)

/-- R70, R86: the first byte tells the length; after the prefix the next byte is decoded in the secondary table,
0xCB included. -/
def Obligations.FirstByteTellsLength : Prop :=
  (∀ (op : Byte) (i : Instr), decode op false = some i →
    i.width = if op.extractLsb' 3 5 = 0b10000#5 then 1 else 3) ∧
  (∀ (op : Byte) (rest : List Byte), decodeBytes (0xCB#8 :: op :: rest) = .error (.noInstruction op true)) ∧
  ∀ (op : Byte) (rest : List Byte), op ≠ 0xCB#8 → decode op false = none →
    decodeBytes (op :: rest) = .error (.noInstruction op false)

/-- A few words written out from the spec's formats (R71, R72): `10000rrr`, `110cc010 lo hi`, `0xC3 lo hi`. -/
def Obligations.WrittenOutWordsDecode : Prop :=
  decodeBytes [0b10000000#8] = .ok ({ instr := .addAB, operand := [] }, []) ∧
  decodeBytes [0b10000101#8] = .ok ({ instr := .addAL, operand := [] }, []) ∧
  decodeBytes [0b10000111#8] = .ok ({ instr := .addAA, operand := [] }, []) ∧
  decodeBytes [0b11000011#8, 0x34#8, 0x12#8] = .ok ({ instr := .jpNN, operand := [0x34#8, 0x12#8] }, []) ∧
  decodeBytes [0b11001010#8, 0x00#8, 0x08#8] = .ok ({ instr := .jpZNN, operand := [0x00#8, 0x08#8] }, []) ∧
  decodeBytes [0b11010010#8, 0x00#8, 0x08#8] = .ok ({ instr := .jpNcNN, operand := [0x00#8, 0x08#8] }, [])

/-- HEADLINE. Decode and encode agree: for every well-formed instruction, with every operand byte at every value,
and whatever follows it in the stream. -/
def Obligations.DecodeOfEncodeIsIdentity : Prop :=
  ∀ (code : Code) (rest : List Byte), code.wf = true → decodeBytes (encode code ++ rest) = .ok (code, rest)

/-- The other direction: what decodes is well formed, and its encoding is the bytes it was read from. -/
def Obligations.DecodedBytesAreTheEncoding : Prop :=
  ∀ (bytes : List Byte) (code : Code) (rest : List Byte), decodeBytes bytes = .ok (code, rest) →
    code.wf = true ∧ bytes = encode code ++ rest

/-! ## Fetch and step -/

/-- R102 to R104: one read at pc, and one more at pc + 1 exactly after the prefix byte; which byte is decoded in
which table (R102, R103); and the decoder's answer with the failure's fields (R104). That a prefixed failure reports
the byte after 0xCB is what R104 marks as derived, from R103. -/
def Obligations.FetchReadsThenDecodes : Prop :=
  ∀ (m : Memory) (pc : Addr),
    (Memory.read m pc ≠ 0xCB#8 →
      (fetchDecode m pc).reads = [pc] ∧ (fetchDecode m pc).decOpcode = Memory.read m pc ∧
      (fetchDecode m pc).decPrefixed = false) ∧
    (Memory.read m pc = 0xCB#8 →
      (fetchDecode m pc).reads = [pc, pc + 1#16] ∧ (fetchDecode m pc).decOpcode = Memory.read m (pc + 1#16) ∧
      (fetchDecode m pc).decPrefixed = true) ∧
    (∀ i, decode (fetchDecode m pc).decOpcode (fetchDecode m pc).decPrefixed = some i →
      (fetchDecode m pc).result = .decoded i) ∧
    (decode (fetchDecode m pc).decOpcode (fetchDecode m pc).decPrefixed = none →
      (fetchDecode m pc).result = .failure (fetchDecode m pc).decOpcode (fetchDecode m pc).decPrefixed)

/-- R107, phase 2: when the bytes at pc decode to an instruction, the step is that instruction's meaning at that
state, and the step adds nothing around it; one decoded byte suffices. -/
def Obligations.StepRunsTheDecodedInstruction : Prop :=
  (∀ (s : State) (code : Code) (rest : List Byte),
    decodeBytes (Memory.bytesFrom s.mem s.pc 3) = .ok (code, rest) → step s = exec code.instr s) ∧
  ∀ (s : State) (i : Instr), decode (Memory.read s.mem s.pc) false = some i → step s = exec i s

/-- R43, R107: the host's step is `step(S, MEM)` on R43's state alone, with the memory beside it as the input `MEM`:
the same outcome, the block it leaves, and the memory as it was. That memory stands in the host's state at all is the
MODEL'S CHOICE (DESIGN CHOICE, log entry 4). -/
def Obligations.StepIsTheBlockStep : Prop :=
  ∀ (block : Block) (m : Memory),
    step { toBlock := block, mem := m } =
      match blockStep block m with
      | .next after => .next { toBlock := after, mem := m }
      | .fault r => .fault r
      | .refused r => .refused r

/-- R106, R114: a step returns `Ok` with a next state or the decode failure, nothing else; and on `Ok` the host is
told so and has that next state. -/
def Obligations.StepHasTwoOutcomes : Prop :=
  (∀ s : State, (∃ t, step s = .next t) ∨ ∃ (op : Byte) (b : Bool), step s = .fault (.decodeFailure op b)) ∧
  ∀ (p : Params) (s t : State), step s = .next t → drive p s .step = (.ok, t)

/-- R190, R195: exactly when a step raises the decode failure, with which fields; that the host is then told so; and
that no instruction that was decoded raises it. That the state after it is the old one is R191, which the spec marks
as derived and as its own decision (D9), and which the driver says here (DEDUCED, log entry 8). -/
def Obligations.DecodeFailureExactly : Prop :=
  (∀ (s : State) (op : Byte) (b : Bool),
    step s = .fault (.decodeFailure op b) ↔
      (b = false ∧ op = Memory.read s.mem s.pc ∧ op ≠ 0xCB#8 ∧ decode op false = none) ∨
      (b = true ∧ Memory.read s.mem s.pc = 0xCB#8 ∧ op = Memory.read s.mem (s.pc + 1#16) ∧ decode op true = none)) ∧
  (∀ (p : Params) (s : State) (op : Byte) (b : Bool), step s = .fault (.decodeFailure op b) →
    drive p s .step = (.decodeFailure op b, s)) ∧
  ∀ (i : Instr) (s : State) (r : Fault), exec i s ≠ .fault r

/-- R191, R199: a step that fails changes no state, and calling it again gives the same failure. -/
def Obligations.FailedStepIsRepeatable : Prop :=
  ∀ (p : Params) (s u : State) (op : Byte) (b : Bool), drive p s .step = (.decodeFailure op b, u) →
    u = s ∧ drive p u .step = (.decodeFailure op b, u) ∧
    ∀ n : Nat, (driveAll p s (List.replicate n .step)).2 = s

/-- R110, R112, R113: the next pc of every step that succeeds, that a failed step keeps it, and that the host
writes it by reset only. -/
def Obligations.ProgramCounterWriters : Prop :=
  (∀ (s t : State) (i : Instr), (fetchDecode s.mem s.pc).result = .decoded i → step s = .next t →
    t.pc = match i.form with
      | .add _ => s.pc + 1#16
      | .jp cond =>
        if condTrue cond s.f then Memory.read s.mem (s.pc + 2#16) ++ Memory.read s.mem (s.pc + 1#16)
        else s.pc + 3#16) ∧
  (∀ (p : Params) (s : State) (op : Byte) (b : Bool), step s = .fault (.decodeFailure op b) →
    (drive p s .step).2.pc = s.pc) ∧
  (∀ (p : Params) (s : State) (reg : Option (Reg8 × Byte)) (pair : Option (Pair × Addr)),
    (drive p s (.hostWrite reg pair)).2.pc = s.pc) ∧
  (∀ (p : Params) (s : State) (cells : List (Addr × Byte)), (drive p s (.changeMemory cells)).2.pc = s.pc) ∧
  ∀ (p : Params) (s : State), (drive p s .reset).2.pc = p.entryPc

/-- R111: pc_we is 1 exactly when the step returns `Ok`, next_pc is what pc then holds, and on a decode failure it
is pc. `jn` is `jmux_next`, which a jump takes from the mux. -/
def Obligations.SequencerLoadsProgramCounter : Prop :=
  ∀ (s : State) (jn : Addr),
    (∀ (i : Instr) (cond : Cond), (fetchDecode s.mem s.pc).result = .decoded i → i.form = .jp cond →
      jn = (jumpMux cond s.f s.pc s.mem).next) →
    ((sequencer s.pc (fetchDecode s.mem s.pc).result jn).pcWe = true ↔ ∃ t, step s = .next t) ∧
    (∀ t, step s = .next t → t.pc = (sequencer s.pc (fetchDecode s.mem s.pc).result jn).next) ∧
    (∀ r, step s = .fault r → (sequencer s.pc (fetchDecode s.mem s.pc).result jn).next = s.pc)

/-- R38: every pc + k is taken modulo 65536: after an add, after a jump not taken, for the address bytes, and for
the byte after the prefix (R103, D16). -/
def Obligations.ProgramCounterWraps : Prop :=
  (∀ (s t : State) (r : Reg8), exec (instrOfForm (.add r)) s = .next t →
    t.pc.toNat = (s.pc.toNat + 1) % 65536) ∧
  (∀ (s t : State) (cond : Cond), condTrue cond s.f = false → exec (instrOfForm (.jp cond)) s = .next t →
    t.pc.toNat = (s.pc.toNat + 3) % 65536) ∧
  (∀ (s : State) (cond : Cond), condTrue cond s.f = true →
    (jumpMux cond s.f s.pc s.mem).reads.map BitVec.toNat =
      [(s.pc.toNat + 1) % 65536, (s.pc.toNat + 2) % 65536]) ∧
  ∀ s : State, Memory.read s.mem s.pc = 0xCB#8 →
    (fetchDecode s.mem s.pc).reads.map BitVec.toNat = [s.pc.toNat, (s.pc.toNat + 1) % 65536]

/-- R22, R27: a step changes b, c, d, e, h and l never, and a and F only by an add, whose N is then 0. -/
def Obligations.OnlyAddWritesRegisters : Prop :=
  ∀ s t : State, step s = .next t →
    t.b = s.b ∧ t.c = s.c ∧ t.d = s.d ∧ t.e = s.e ∧ t.h = s.h ∧ t.l = s.l ∧
    (t.a ≠ s.a ∨ t.f ≠ s.f →
      ∃ r : Reg8, (fetchDecode s.mem s.pc).result = .decoded (instrOfForm (.add r)) ∧ t.f.n = false)

/-- R22, what an instruction reads: an add's result and flags depend on a and its source register alone, and a
jump's next pc, at one pc and over one memory, on Z alone (NZ, Z), on C alone (NC, C) or on no flag. So no
instruction reads N or H. -/
def Obligations.InstructionsReadOnlyTheirOperands : Prop :=
  (∀ (r : Reg8) (s s' t t' : State), s.a = s'.a → s.readReg r = s'.readReg r →
    exec (instrOfForm (.add r)) s = .next t → exec (instrOfForm (.add r)) s' = .next t' → t.a = t'.a ∧ t.f = t'.f) ∧
  ∀ (i : Instr) (s s' t t' : State), s.pc = s'.pc → s.mem = s'.mem → exec i s = .next t → exec i s' = .next t' →
    (i = .jpNN → t.pc = t'.pc) ∧
    (i = .jpNzNN ∨ i = .jpZNN → s.f.z = s'.f.z → t.pc = t'.pc) ∧
    (i = .jpNcNN ∨ i = .jpCNN → s.f.c = s'.f.c → t.pc = t'.pc)

/-- R201: every admitted instruction is executable in every state. -/
def Obligations.EveryInstructionExecutes : Prop :=
  ∀ (i : Instr) (s : State), ∃ t, exec i s = .next t

/-! ## Memory -/

/-- R52: no step writes memory: every address reads after it as before. -/
def Obligations.StepNeverWritesMemory : Prop :=
  ∀ s t : State, step s = .next t → t.mem = s.mem ∧ ∀ addr, Memory.read t.mem addr = Memory.read s.mem addr

/-- R56: the addresses a step reads, in order. -/
def Obligations.ReadsOfOneStep : Prop :=
  ∀ s : State, stepReads s =
    if Memory.read s.mem s.pc = 0xCB#8 then [s.pc, s.pc + 1#16]
    else match decode (Memory.read s.mem s.pc) false with
      | none => [s.pc]
      | some i =>
        match i.form with
        | .add _ => [s.pc]
        | .jp cond => if condTrue cond s.f then [s.pc, s.pc + 1#16, s.pc + 2#16] else [s.pc]

/-- A step depends on no other byte of memory than those R56 lists: with any memory that answers alike
there, it has the same outcome, and leaves that memory as it is. So a jump not taken does not see its address
bytes. -/
def Obligations.StepDependsOnlyOnBytesItReads : Prop :=
  ∀ (s : State) (m : Memory), (∀ addr ∈ stepReads s, Memory.read m addr = Memory.read s.mem addr) →
    match step s with
    | .next t => stepUnder m s = .next { t with mem := m }
    | .fault r => stepUnder m s = .fault r
    | .refused r => stepUnder m s = .refused r

/-- A change of the memory device's answers: the address changed answers the new byte, every other address as
before. -/
def Obligations.MemoryReadAfterWrite : Prop :=
  ∀ (m : Memory) (addr : Addr) (v : Byte), Memory.wf m = true →
    Memory.read (Memory.write m addr v) addr = v ∧
    ∀ other : Addr, other ≠ addr → Memory.read (Memory.write m addr v) other = Memory.read m other

/-- `MEM` is any total function from addresses to bytes (R50), and the model's memory holds each of them as exactly
one list in the canonical form: nothing of `MEM` is fixed, and equal memories are equal data. The canonical list, and
the byte an unlisted address reads as, are the MODEL'S CHOICE (DESIGN CHOICE, log entry 3). -/
def Obligations.MemoryHoldsEveryTotalFunction : Prop :=
  ∀ answers : Addr → Byte, ∃ m : Memory, Memory.wf m = true ∧ (∀ addr, Memory.read m addr = answers addr) ∧
    ∀ m' : Memory, Memory.wf m' = true → (∀ addr, Memory.read m' addr = answers addr) → m' = m

/-- HEADLINE. The invariant that every step and every session keeps: from any state whose memory is canonical,
whatever the host does (reset, steps that succeed or fail, register writes, changes of memory), it is canonical after.
The canonical form is the MODEL'S CHOICE (DESIGN CHOICE, log entry 3), and so is that a session goes on past a refused
request (DESIGN CHOICE, log entry 14). -/
def Obligations.SessionsKeepCanonicalMemory : Prop :=
  (∀ s t : State, State.wf s = true → step s = .next t → State.wf t = true) ∧
  ∀ (p : Params) (acts : List DriverAction) (s : State), State.wf s = true → State.wf (driveAll p s acts).2 = true

/-- R66: whatever changes the host makes between two steps, they are seen by the next fetch, with nothing in
between: each address answers the last byte given for it, the registers, the flags and pc are as before, and the step
runs or rejects the byte now at pc, or after the prefix the byte now at pc + 1. Then the same of one byte changed at
pc. -/
def Obligations.NextFetchSeesMemoryChange : Prop :=
  (∀ (p : Params) (s : State) (cells : List (Addr × Byte)), State.wf s = true →
    ∃ u, drive p s (.changeMemory cells) = (.ok, u) ∧ u.toBlock = s.toBlock ∧
      (∀ addr, Memory.read u.mem addr =
        match cells.reverse.find? (fun cell => cell.1 == addr) with
        | some cell => cell.2
        | none => Memory.read s.mem addr) ∧
      (∀ i, decode (Memory.read u.mem u.pc) false = some i → step u = exec i u) ∧
      (Memory.read u.mem u.pc ≠ 0xCB#8 → decode (Memory.read u.mem u.pc) false = none →
        step u = .fault (.decodeFailure (Memory.read u.mem u.pc) false)) ∧
      (Memory.read u.mem u.pc = 0xCB#8 →
        step u = .fault (.decodeFailure (Memory.read u.mem (u.pc + 1#16)) true))) ∧
  ∀ (p : Params) (s : State) (v : Byte), State.wf s = true →
    ∃ u, drive p s (.changeMemory [(s.pc, v)]) = (.ok, u) ∧
      (∀ r : Reg8, u.readReg r = s.readReg r) ∧ u.f = s.f ∧ u.pc = s.pc ∧
      (∀ i, decode v false = some i → step u = exec i u) ∧
      (v ≠ 0xCB#8 → decode v false = none → step u = .fault (.decodeFailure v false)) ∧
      (v = 0xCB#8 → step u = .fault (.decodeFailure (Memory.read u.mem (u.pc + 1#16)) true))

/-- The MODEL'S placing of a program word (log entry 5): a table word that decodes is what the next step runs, and
placing it changes memory alone. -/
def Obligations.PlacedWordIsTheNextInstruction : Prop :=
  ∀ (s : State) (nbits w : Nat) (i : Instr), State.wf s = true → decodeTableWord nbits w = some i →
    step (s.withFetchWord nbits w) = exec i (s.withFetchWord nbits w) ∧
    s.withFetchWord nbits w = { s with mem := (s.withFetchWord nbits w).mem }

/-- D23, R193: a session is its actions one after the other: one action gives its own report and state, and a session
cut anywhere is the first part and then the rest from the state it left. That it goes on past a refused request is the
MODEL'S CHOICE (DESIGN CHOICE, log entry 14). -/
def Obligations.SessionsRunActionsInOrder : Prop :=
  (∀ (p : Params) (s : State) (act : DriverAction),
    driveAll p s [act] = ([(drive p s act).1], (drive p s act).2)) ∧
  ∀ (p : Params) (s : State) (before after : List DriverAction),
    driveAll p s (before ++ after) =
      ((driveAll p s before).1 ++ (driveAll p (driveAll p s before).2 after).1,
        (driveAll p (driveAll p s before).2 after).2)

/-! ## Runs -/

/-- R115's halt is a fixed point: at a self-jump every later step leaves the state unchanged. -/
def Obligations.SelfJumpIsAFixedPoint : Prop :=
  ∀ s : State, selfJump s = true → step s = .next s ∧ ∀ n : Nat, Sys2Proof.core.run n s = .next s

/-- R115: a run ends at the first step that returns the decode failure, or halts at the first state that is a
self-jump, or has done neither within the bound; it is never refused. The bound `n`, and that an end reached after
exactly `n` steps still counts as running, are the MODEL'S (DEDUCED, log entry 13). -/
def Obligations.RunEndsAsTheRuleSays : Prop :=
  ∀ (n : Nat) (s u : State),
    (runEnd n s = .halted u ↔
      selfJump u = true ∧ ∃ k, k < n ∧ Sys2Proof.core.run k s = .next u ∧
        ∀ j, j < k → ∀ v : State, Sys2Proof.core.run j s = .next v → selfJump v = false) ∧
    (∀ (op : Byte) (b : Bool), runEnd n s = .failed op b u ↔
      step u = .fault (.decodeFailure op b) ∧ ∃ k, k < n ∧ Sys2Proof.core.run k s = .next u ∧
        ∀ j, j < k → ∀ v : State, Sys2Proof.core.run j s = .next v → selfJump v = false) ∧
    (runEnd n s = .running u ↔
      Sys2Proof.core.run n s = .next u ∧
        ∀ j, j < n → ∀ v : State, Sys2Proof.core.run j s = .next v → selfJump v = false) ∧
    SafeRun n s
end

