-- ==== Sys2Proof/Laws/Decode.lean ====
section
/-! SUPPORT. The decoder's small lemmas. -/

namespace Sys2Proof

@[simp] theorem instrOfForm_form (i : Instr) : instrOfForm i.form = i := by cases i <;> rfl

@[simp] theorem form_instrOfForm (f : Form) : (instrOfForm f).form = f := by
  cases f with
  | add r => cases r <;> rfl
  | jp cond => cases cond <;> rfl

@[simp] theorem decode_secondary (op : Byte) : decode op true = none := rfl

theorem regOfField_regCode (r : Reg8) : regOfField (regCode r) = some r := by cases r <;> rfl

/-- An instruction's opcode byte decodes to it. -/
theorem decode_opcodeByte (i : Instr) : decode (opcodeByte i) false = some i := by cases i <;> rfl

theorem width_pos (i : Instr) : 0 < i.width := by cases i <;> decide

theorem opcodeByte_ne_prefix (i : Instr) : opcodeByte i ≠ prefixByte := by cases i <;> decide

end Sys2Proof
end

