-- ==== Sys2Proof/Laws/State.lean ====
section
/-! SUPPORT. One lemma per field per update of the state, so that no proof unfolds a record update. -/

namespace Sys2Proof.Machine

section SetPc
variable (s : Block) (t : Addr)
@[simp] theorem Block.setPc_a : (s.setPc t).a = s.a := rfl
@[simp] theorem Block.setPc_b : (s.setPc t).b = s.b := rfl
@[simp] theorem Block.setPc_c : (s.setPc t).c = s.c := rfl
@[simp] theorem Block.setPc_d : (s.setPc t).d = s.d := rfl
@[simp] theorem Block.setPc_e : (s.setPc t).e = s.e := rfl
@[simp] theorem Block.setPc_h : (s.setPc t).h = s.h := rfl
@[simp] theorem Block.setPc_l : (s.setPc t).l = s.l := rfl
@[simp] theorem Block.setPc_f : (s.setPc t).f = s.f := rfl
@[simp] theorem Block.setPc_pc : (s.setPc t).pc = t := rfl
end SetPc

section WriteFlags
variable (s : Block) (f : Flags)
@[simp] theorem Block.writeFlags_a : (s.writeFlags f).a = s.a := rfl
@[simp] theorem Block.writeFlags_b : (s.writeFlags f).b = s.b := rfl
@[simp] theorem Block.writeFlags_c : (s.writeFlags f).c = s.c := rfl
@[simp] theorem Block.writeFlags_d : (s.writeFlags f).d = s.d := rfl
@[simp] theorem Block.writeFlags_e : (s.writeFlags f).e = s.e := rfl
@[simp] theorem Block.writeFlags_h : (s.writeFlags f).h = s.h := rfl
@[simp] theorem Block.writeFlags_l : (s.writeFlags f).l = s.l := rfl
@[simp] theorem Block.writeFlags_f : (s.writeFlags f).f = f := rfl
@[simp] theorem Block.writeFlags_pc : (s.writeFlags f).pc = s.pc := rfl
end WriteFlags

section WriteReg
variable (s : Block) (r : Reg8) (v : Byte)
@[simp] theorem Block.writeReg_a : (s.writeReg r v).a = if r = .a then v else s.a := by cases r <;> rfl
@[simp] theorem Block.writeReg_b : (s.writeReg r v).b = if r = .b then v else s.b := by cases r <;> rfl
@[simp] theorem Block.writeReg_c : (s.writeReg r v).c = if r = .c then v else s.c := by cases r <;> rfl
@[simp] theorem Block.writeReg_d : (s.writeReg r v).d = if r = .d then v else s.d := by cases r <;> rfl
@[simp] theorem Block.writeReg_e : (s.writeReg r v).e = if r = .e then v else s.e := by cases r <;> rfl
@[simp] theorem Block.writeReg_h : (s.writeReg r v).h = if r = .h then v else s.h := by cases r <;> rfl
@[simp] theorem Block.writeReg_l : (s.writeReg r v).l = if r = .l then v else s.l := by cases r <;> rfl
@[simp] theorem Block.writeReg_f : (s.writeReg r v).f = s.f := by cases r <;> rfl
@[simp] theorem Block.writeReg_pc : (s.writeReg r v).pc = s.pc := by cases r <;> rfl
end WriteReg

section SetPair
variable (mode : AfWriteMode) (s : Block) (p : Pair) (v : Addr)
@[simp] theorem Block.setPair_pc : (s.setPair mode p v).pc = s.pc := by cases p <;> cases mode <;> rfl
end SetPair

section Reset
variable (p : Params) (m : Memory)
@[simp] theorem State.resetWith_a : (State.resetWith p m).a = p.resetRegs.a := rfl
@[simp] theorem State.resetWith_b : (State.resetWith p m).b = p.resetRegs.b := rfl
@[simp] theorem State.resetWith_c : (State.resetWith p m).c = p.resetRegs.c := rfl
@[simp] theorem State.resetWith_d : (State.resetWith p m).d = p.resetRegs.d := rfl
@[simp] theorem State.resetWith_e : (State.resetWith p m).e = p.resetRegs.e := rfl
@[simp] theorem State.resetWith_h : (State.resetWith p m).h = p.resetRegs.h := rfl
@[simp] theorem State.resetWith_l : (State.resetWith p m).l = p.resetRegs.l := rfl
@[simp] theorem State.resetWith_f : (State.resetWith p m).f = p.resetRegs.f := rfl
@[simp] theorem State.resetWith_pc : (State.resetWith p m).pc = p.entryPc := rfl
@[simp] theorem State.resetWith_toBlock : (State.resetWith p m).toBlock = Block.resetWith p := rfl
@[simp] theorem State.resetWith_mem : (State.resetWith p m).mem = m := rfl
end Reset

/-- A write request reaches pc by no port. -/
@[simp] theorem applyPorts_pc (mode : AfWriteMode) (w : WritePorts) (s : Block) :
    (applyPorts mode w s).pc = s.pc := by
  rcases w with ⟨aw, fw, rw', pw⟩
  cases aw <;> cases fw <;> cases rw' <;> cases pw <;> simp [applyPorts]

section WithBlock
variable (s : State) (b : Block)
@[simp] theorem State.withBlock_toBlock : (s.withBlock b).toBlock = b := rfl
@[simp] theorem State.withBlock_mem : (s.withBlock b).mem = s.mem := rfl
end WithBlock

end Sys2Proof.Machine
end

