-- ==== Sys2Proof/Laws/Exec.lean ====
section
/-! SUPPORT. What each shared operation can do, said once: the add, the jump, the dispatch, the fetch, the step. -/

namespace Sys2Proof.Machine

/-- The add writes a, the four flags and pc (R131). -/
theorem addExecute_eq (r : Reg8) (s : Block) :
    addExecute r s = { s with a := (add8 s.a (s.readReg r)).res, f := (add8 s.a (s.readReg r)).flags,
                              pc := s.pc + 1#16 } := rfl

/-- The jump writes pc alone (R161). -/
theorem jpExecute_eq (cond : Cond) (s : Block) (m : Memory) :
    jpExecute cond s m = { s with pc := (jumpMux cond s.f s.pc m).next } := rfl

/-- Phase 2 by the instruction's form (R107). -/
@[simp] theorem executeForm_add (r : Reg8) (s : Block) (m : Memory) :
    executeForm (.add r) s m = { s with a := (add8 s.a (s.readReg r)).res, f := (add8 s.a (s.readReg r)).flags,
                                        pc := s.pc + 1#16 } := rfl

@[simp] theorem executeForm_jp (cond : Cond) (s : Block) (m : Memory) :
    executeForm (.jp cond) s m = { s with pc := (jumpMux cond s.f s.pc m).next } := rfl

theorem jumpMux_taken {cond : Cond} {f : Flags} (pc : Addr) (m : Memory) (h : condTrue cond f = true) :
    jumpMux cond f pc m =
      { taken := true, opndReq := true, next := jumpTarget m pc, reads := [pc + 1#16, pc + 2#16] } := by
  simp [jumpMux, h]

theorem jumpMux_notTaken {cond : Cond} {f : Flags} (pc : Addr) (m : Memory) (h : condTrue cond f = false) :
    jumpMux cond f pc m = { taken := false, opndReq := false, next := pc + 3#16, reads := [] } := by
  simp [jumpMux, h]

/-- The dispatch runs the shared rule of the instruction's form, writes the block and always answers a next state
(R107, phase 2). -/
theorem exec_of_form (i : Instr) (s : State) :
    exec i s = .next (s.withBlock (executeForm i.form s.toBlock s.mem)) := by
  cases i <;> rfl

/-- What a meaning can do: an add's writes, or a jump's. -/
theorem exec_cases {i : Instr} {s t : State} (h : exec i s = .next t) :
    (∃ r, i.form = .add r ∧ t = { s with a := (add8 s.a (s.readReg r)).res,
                                         f := (add8 s.a (s.readReg r)).flags, pc := s.pc + 1#16 }) ∨
    (∃ cond, i.form = .jp cond ∧ t = { s with pc := (jumpMux cond s.f s.pc s.mem).next }) := by
  rw [exec_of_form] at h
  cases hf : i.form with
  | add r =>
    rw [hf] at h
    cases h
    exact .inl ⟨r, rfl, rfl⟩
  | jp cond =>
    rw [hf] at h
    cases h
    exact .inr ⟨cond, rfl, rfl⟩

/-- Fetching at a byte that is not the prefix (R102, R103). -/
theorem fetchDecode_base {m : Memory} {pc : Addr} (h : Memory.read m pc ≠ prefixByte) :
    fetchDecode m pc = { reads := [pc], decOpcode := Memory.read m pc, decPrefixed := false,
                         result := fetchAnswer (Memory.read m pc) false } := by
  simp [fetchDecode, h]

/-- Fetching at the prefix byte (R103). -/
theorem fetchDecode_prefixed {m : Memory} {pc : Addr} (h : Memory.read m pc = prefixByte) :
    fetchDecode m pc = { reads := [pc, pc + 1#16], decOpcode := Memory.read m (pc + 1#16), decPrefixed := true,
                         result := fetchAnswer (Memory.read m (pc + 1#16)) true } := by
  simp [fetchDecode, h]

/-- A step by its fetch's answer: the instruction's meaning, or the failure. -/
theorem step_of_decoded {s : State} {i : Instr} (h : (fetchDecode s.mem s.pc).result = .decoded i) :
    step s = exec i s := by
  simp [step, h]

theorem step_of_failure {s : State} {op : Byte} {p : Bool}
    (h : (fetchDecode s.mem s.pc).result = .failure op p) : step s = .fault (.decodeFailure op p) := by
  simp [step, h, raiseDecodeFailure]

/-- The block's own step by its fetch's answer. -/
theorem blockStep_of_decoded {s : Block} {m : Memory} {i : Instr} (h : (fetchDecode m s.pc).result = .decoded i) :
    blockStep s m = .next (executeForm i.form s m) := by
  simp [blockStep, h]

theorem blockStep_of_failure {s : Block} {m : Memory} {op : Byte} {p : Bool}
    (h : (fetchDecode m s.pc).result = .failure op p) : blockStep s m = .fault (.decodeFailure op p) := by
  simp [blockStep, h, raiseDecodeFailure]

/-- What a step that answers a next state did: it fetched an instruction and ran it. -/
theorem step_next {s t : State} (h : step s = .next t) :
    ∃ i, (fetchDecode s.mem s.pc).result = .decoded i ∧ exec i s = .next t := by
  cases hr : (fetchDecode s.mem s.pc).result with
  | decoded i => exact ⟨i, rfl, by rwa [step_of_decoded hr] at h⟩
  | failure op p => rw [step_of_failure hr] at h; cases h

/-- The driver's step keeps the state where the step gives none. -/
theorem drive_step_of_next {p : Params} {s t : State} (h : step s = .next t) : drive p s .step = (.ok, t) := by
  simp [drive, h, settleOutcome]

theorem drive_step_of_failure {p : Params} {s : State} {op : Byte} {b : Bool}
    (h : step s = .fault (.decodeFailure op b)) : drive p s .step = (.decodeFailure op b, s) := by
  simp [drive, h, settleOutcome]

/-- What a write request to the register file can do: be refused for its ports alone, or take effect. -/
theorem portWrite_next {mode : AfWriteMode} {w : WritePorts} {s t : Block} (h : portWrite mode w s = .next t) :
    w.conflict = false ∧ t = applyPorts mode w s := by
  unfold portWrite at h
  split at h
  · cases h
  · exact ⟨by simpa using ‹¬w.conflict = true›, by simpa using h.symm⟩

/-- The driver's host write is one request on the host's ports: taken or refused as `portWrite` says. -/
theorem drive_hostWrite_of_next {p : Params} {s : State} {reg : Option (Reg8 × Byte)} {pair : Option (Pair × Addr)}
    {b : Block} (h : portWrite p.afWriteMode { regWrite := reg, pairWrite := pair } s.toBlock = .next b) :
    drive p s (.hostWrite reg pair) = (.ok, s.withBlock b) := by
  simp [drive, h, settleOutcome]

theorem drive_hostWrite_of_refused {p : Params} {s : State} {reg : Option (Reg8 × Byte)} {pair : Option (Pair × Addr)}
    {r : Refusal} (h : portWrite p.afWriteMode { regWrite := reg, pairWrite := pair } s.toBlock = .refused r) :
    drive p s (.hostWrite reg pair) = (.refused r, s) := by
  simp [drive, h, settleOutcome, State.withBlock]

/-- Whatever the request, the host's ports reach neither pc nor memory. -/
theorem drive_hostWrite_pc_mem (p : Params) (s : State) (reg : Option (Reg8 × Byte)) (pair : Option (Pair × Addr)) :
    (drive p s (.hostWrite reg pair)).2.pc = s.pc ∧ (drive p s (.hostWrite reg pair)).2.mem = s.mem := by
  simp only [drive, portWrite]
  split <;> simp [settleOutcome, State.withBlock]

end Sys2Proof.Machine
end

