-- ==== Sys2Proof/Laws/Memory.lean ====
section
/-! SUPPORT. Every memory operation keeps the canonical form, and reset's memory has it. -/

namespace Sys2Proof.Machine

/-- The canonical form from an address number up implies it from any lower one. -/
theorem Memory.wfFrom_mono {lo lo' : Nat} {m : Memory} (hle : lo' ≤ lo) (h : Memory.wfFrom lo m = true) :
    Memory.wfFrom lo' m = true := by
  cases m with
  | nil => rfl
  | cons kv rest =>
    simp only [Memory.wfFrom, Bool.and_eq_true, decide_eq_true_eq] at h ⊢
    exact ⟨⟨⟨by omega, h.1.1.2⟩, h.1.2⟩, h.2⟩

/-- An entry put in front of higher ones keeps the form. -/
theorem Memory.wfFrom_consEntry {lo n : Nat} {v : Byte} {m : Memory} (hlo : lo ≤ n) (hn : n < 65536)
    (h : Memory.wfFrom (n + 1) m = true) : Memory.wfFrom lo (Memory.consEntry n v m) = true := by
  unfold Memory.consEntry
  split
  · exact Memory.wfFrom_mono (by omega) h
  · simp [Memory.wfFrom, *]

/-- Below the first entry of a canonical list every address is unlisted. -/
theorem Memory.lookup_below {lo n : Nat} {m : Memory} (h : Memory.wfFrom lo m = true) (hn : n < lo) :
    Memory.lookup m n = Config.unlistedByte := by
  induction m generalizing lo with
  | nil => rfl
  | cons kv rest ih =>
    simp only [Memory.wfFrom, Bool.and_eq_true, decide_eq_true_eq] at h
    rw [Memory.lookup, if_neg (by omega)]
    exact ih h.2 (by omega)

/-- Reading past an entry put in front: that entry at its address, the rest elsewhere. -/
theorem Memory.lookup_consEntry {n : Nat} {v : Byte} {m : Memory} (h : Memory.wfFrom (n + 1) m = true) (k : Nat) :
    Memory.lookup (Memory.consEntry n v m) k = if n = k then v else Memory.lookup m k := by
  unfold Memory.consEntry
  split
  · split
    · subst_vars
      exact Memory.lookup_below h (by omega)
    · rfl
  · rfl

/-- Changing one byte keeps the form. -/
theorem Memory.wfFrom_insert {lo n : Nat} {v : Byte} {m : Memory} (hlo : lo ≤ n) (hn : n < 65536)
    (h : Memory.wfFrom lo m = true) : Memory.wfFrom lo (Memory.insert m n v) = true := by
  induction m generalizing lo with
  | nil => exact Memory.wfFrom_consEntry hlo hn rfl
  | cons kv rest ih =>
    obtain ⟨k, w⟩ := kv
    simp only [Memory.wfFrom, Bool.and_eq_true, decide_eq_true_eq] at h
    obtain ⟨⟨⟨hk, hk'⟩, hw⟩, hrest⟩ := h
    simp only [Memory.insert]
    split
    · exact Memory.wfFrom_consEntry hlo hn (by simp [Memory.wfFrom, *])
    · split
      · exact Memory.wfFrom_consEntry hlo hn (by simp [*])
      · simp only [Memory.wfFrom, Bool.and_eq_true, decide_eq_true_eq]
        exact ⟨⟨⟨hk, hk'⟩, hw⟩, ih (by omega) hrest⟩

theorem Memory.wf_write {m : Memory} (addr : Addr) (v : Byte) (h : Memory.wf m = true) :
    Memory.wf (Memory.write m addr v) = true :=
  Memory.wfFrom_insert (Nat.zero_le _) addr.isLt h

theorem Memory.wf_writeBytes {m : Memory} (bytes : List Byte) (addr : Addr) (h : Memory.wf m = true) :
    Memory.wf (Memory.writeBytes m addr bytes) = true := by
  induction bytes generalizing m addr with
  | nil => exact h
  | cons v rest ih => exact ih _ (Memory.wf_write addr v h)

theorem Memory.wf_writeCells {m : Memory} (cells : List (Addr × Byte)) (h : Memory.wf m = true) :
    Memory.wf (Memory.writeCells m cells) = true := by
  induction cells generalizing m with
  | nil => exact h
  | cons cell rest ih => exact ih (Memory.wf_write cell.1 cell.2 h)

theorem State.wf_withFetchWord {s : State} (nbits w : Nat) (h : s.wf = true) :
    (s.withFetchWord nbits w).wf = true :=
  Memory.wf_writeBytes _ _ h

/-- Reset neither reads nor writes memory, so it keeps the form (R210). -/
theorem State.wf_resetWith (p : Params) {m : Memory} (h : Memory.wf m = true) :
    (State.resetWith p m).wf = true := h

end Sys2Proof.Machine
end

