-- ==== Sys2Proof/Laws/PerInstr.lean ====
section
/-! SUPPORT. Statements about every instruction as syntax, one lemma per constructor. -/

/-- The base table reads an instruction's opcode byte as that instruction, and no other byte: the opcode is
unambiguous, and nothing of it is dropped (R71, R72, R78). -/
def Sys2Proof.Laws.Opcode.Statement (i : Sys2Proof.Instr) : Prop :=
  ∀ op : Sys2Proof.Byte, Sys2Proof.decode op false = some i ↔ op = Sys2Proof.opcodeByte i

namespace Sys2Proof.Laws.Opcode

theorem addAB : Statement .addAB := by unfold Statement; decide
theorem addAC : Statement .addAC := by unfold Statement; decide
theorem addAD : Statement .addAD := by unfold Statement; decide
theorem addAE : Statement .addAE := by unfold Statement; decide
theorem addAH : Statement .addAH := by unfold Statement; decide
theorem addAL : Statement .addAL := by unfold Statement; decide
theorem addAA : Statement .addAA := by unfold Statement; decide
theorem jpNN : Statement .jpNN := by unfold Statement; decide
theorem jpNzNN : Statement .jpNzNN := by unfold Statement; decide
theorem jpZNN : Statement .jpZNN := by unfold Statement; decide
theorem jpNcNN : Statement .jpNcNN := by unfold Statement; decide
theorem jpCNN : Statement .jpCNN := by unfold Statement; decide

end Sys2Proof.Laws.Opcode
end

