-- ==== Sys2Proof/Laws/Run.lean ====
section
/-! SUPPORT. The unfolding of a run by its first step, said once for each way that step can go. -/

namespace Sys2Proof.Machine

theorem runEnd_of_selfJump (n : Nat) {s : State} (h : selfJump s = true) : runEnd (n + 1) s = .halted s := by
  simp [runEnd, h]

theorem runEnd_of_next (n : Nat) {s t : State} (h : selfJump s = false) (hs : step s = .next t) :
    runEnd (n + 1) s = runEnd n t := by
  simp [runEnd, h, hs]

theorem runEnd_of_failure (n : Nat) {s : State} {op : Byte} {b : Bool} (h : selfJump s = false)
    (hs : step s = .fault (.decodeFailure op b)) : runEnd (n + 1) s = .failed op b s := by
  simp [runEnd, h, hs]

/-- The host's run by its first step. -/
theorem core_run_succ (n : Nat) (s : State) :
    Sys2Proof.core.run (n + 1) s = match step s with
      | .next t => Sys2Proof.core.run n t
      | .fault r => .fault r
      | .refused r => .refused r := by
  cases h : step s <;> simp [Host.Core.run, Sys2Proof.core, h]

end Sys2Proof.Machine
end

