-- ==== Sys2Proof/Tests/Slice0.lean ====
section
/-! SUPPORT. Tests with results from spec/95_test_vectors.md and the rules' worked examples, one step each, and
witnesses that the hypotheses of the statements can be met. -/

namespace Sys2Proof.Tests

open Sys2Proof.Machine

/-- The start state of spec 95 section 2.2, at a given pc over a given memory. -/
def start (pc : Addr) (mem : Memory) : State :=
  { a := 0x11#8, b := 0x22#8, c := 0x33#8, d := 0x44#8, e := 0x55#8, h := 0x66#8, l := 0x77#8,
    f := { z := false, n := false, h := false, c := false }, pc := pc, mem := mem }

def nextOf {σ : Type} : Host.Outcome σ Fault Refusal → Option σ
  | .next t => some t
  | _ => none

def faultOf {σ : Type} : Host.Outcome σ Fault Refusal → Option Fault
  | .fault r => some r
  | _ => none

def refusalOf {σ : Type} : Host.Outcome σ Fault Refusal → Option Refusal
  | .refused r => some r
  | _ => none

/-- What a step leaves in a, F and pc. -/
def afterStep (s : State) : Option (Byte × Flags × Addr) :=
  (nextOf (step s)).map fun t => (t.a, t.f, t.pc)

/-- The pc after a step, if it changed nothing else. -/
def jumpsTo (s : State) : Option Addr :=
  match nextOf (step s) with
  | some t => if t = { s with pc := t.pc } then some t.pc else none
  | none => none

/-- The memory of spec 95 section 2.5: a jump opcode at 0x0400 with target 0x0800. -/
def jumpAt (op : Byte) (f : Flags) : State :=
  { start 0x0400#16 [(0x0400, op), (0x0402, 0x08#8)] with f := f }

def flags (z n h c : Bool) : Flags := { z := z, n := n, h := h, c := c }

/-! ## Well-formedness: an ill-formed term for each check -/

theorem test_wf_add_with_operand : Code.wf { instr := .addAB, operand := [0x00#8] } = false := by decide
theorem test_wf_jump_one_byte_short : Code.wf { instr := .jpNN, operand := [0x00#8] } = false := by decide
theorem test_wf_jump_one_byte_long : Code.wf { instr := .jpCNN, operand := [0#8, 0#8, 0#8] } = false := by decide
theorem test_wf_jump : Code.wf { instr := .jpZNN, operand := [0x34#8, 0x12#8] } = true := by decide
theorem test_memory_wf_unsorted : Memory.wf [(2, 1#8), (1, 1#8)] = false := by decide
theorem test_memory_wf_repeat : Memory.wf [(2, 1#8), (2, 1#8)] = false := by decide
theorem test_memory_wf_unlisted_value : Memory.wf [(2, 0#8)] = false := by decide
theorem test_memory_wf_beyond_space : Memory.wf [(65536, 1#8)] = false := by decide
theorem test_memory_wf : Memory.wf [(0, 1#8), (65535, 0xFF#8)] = true := by decide

/-! ## Decoding: every constructor from a word written out by R71 and R72 (`10000rrr`, `110cc010`, 0xC3) -/

theorem test_decode_add_b : decodeTableWord 8 0b10000000 = some .addAB := by decide
theorem test_decode_add_c : decodeTableWord 8 0b10000001 = some .addAC := by decide
theorem test_decode_add_d : decodeTableWord 8 0b10000010 = some .addAD := by decide
theorem test_decode_add_e : decodeTableWord 8 0b10000011 = some .addAE := by decide
theorem test_decode_add_h : decodeTableWord 8 0b10000100 = some .addAH := by decide
theorem test_decode_add_l : decodeTableWord 8 0b10000101 = some .addAL := by decide
theorem test_decode_add_a : decodeTableWord 8 0b10000111 = some .addAA := by decide
theorem test_decode_jp : decodeTableWord 24 0x1234C3 = some .jpNN := by decide
theorem test_decode_jp_nz : decodeTableWord 24 (0x0800 * 256 + 0b11000010) = some .jpNzNN := by decide
theorem test_decode_jp_z : decodeTableWord 24 (0x0800 * 256 + 0b11001010) = some .jpZNN := by decide
theorem test_decode_jp_nc : decodeTableWord 24 (0x0800 * 256 + 0b11010010) = some .jpNcNN := by decide
theorem test_decode_jp_c : decodeTableWord 8 0b11011010 = some .jpCNN := by decide
theorem test_decode_operand_order : decodeBytes [0xC3#8, 0x34#8, 0x12#8, 0x80#8]
    = .ok ({ instr := .jpNN, operand := [0x34#8, 0x12#8] }, [0x80#8]) := by rfl
theorem test_decode_prefixed : decodeBytes [0xCB#8, 0x37#8] = .error (.noInstruction 0x37#8 true) := by rfl
theorem test_decode_hl_operand : decodeBytes [0x86#8] = .error (.noInstruction 0x86#8 false) := by rfl
theorem test_decode_cut_short : decodeBytes [0xC3#8, 0x34#8] = .error .truncated := by rfl
theorem test_encode_jump : encode { instr := .jpNcNN, operand := [0x34#8, 0x12#8] } = [0xD2#8, 0x34#8, 0x12#8] := by
  decide

/-- R88's map, row by row: every other row is all misses. -/
def mapRow (hi : Nat) : List (Option Instr) :=
  match hi with
  | 0x8 => [some .addAB, some .addAC, some .addAD, some .addAE, some .addAH, some .addAL, none, some .addAA]
  | 0xC => [none, none, some .jpNzNN, some .jpNN, none, none, none, none, none, none, some .jpZNN]
  | 0xD => [none, none, some .jpNcNN, none, none, none, none, none, none, none, some .jpCNN]
  | _ => []

theorem test_opcode_map : ∀ op : Byte,
    decode op false = ((mapRow (op.toNat / 16))[op.toNat % 16]?).join := by decide

/-! ## Flags, pairs and the ALU (spec 95 sections 2.1, 2.2, 2.4) -/

theorem test_flags_to_byte_z : flagsToByte (flags true false false false) = 0x80#8 := by decide
theorem test_flags_to_byte_n : flagsToByte (flags false true false false) = 0x40#8 := by decide
theorem test_flags_to_byte_h : flagsToByte (flags false false true false) = 0x20#8 := by decide
theorem test_flags_to_byte_c : flagsToByte (flags false false false true) = 0x10#8 := by decide
theorem test_byte_to_flags_a5 : byteToFlags 0xA5#8 = flags true false true false := by decide
theorem test_byte_to_flags_low_nibble : byteToFlags 0x0F#8 = flags false false false false := by decide

theorem test_get_pairs : ((start 0#16 []).getPair .bc, (start 0#16 []).getPair .de, (start 0#16 []).getPair .hl)
    = (0x2233#16, 0x4455#16, 0x6677#16) := by decide
theorem test_get_pair_af : ((start 0#16 []).writeFlags (flags true false true true)).getPair .af = 0x11B0#16 := by
  decide
theorem test_set_pair_bc : (start 0#16 []).setPair .corrected .bc 0x1234#16
    = { (start 0#16 []).toBlock with b := 0x12#8, c := 0x34#8 } := by decide
theorem test_set_pair_af_corrected : (start 0#16 []).setPair .corrected .af 0x12FF#16
    = { (start 0#16 []).toBlock with a := 0x12#8, f := flags true true true true } := by decide
theorem test_set_pair_af_source_compat : (start 0#16 []).setPair .sourceCompat .af 0x12FF#16
    = { (start 0#16 []).toBlock with a := 0x12#8, c := 0xFF#8 } := by decide

theorem test_add8_half_carry_only : add8 0x0F#8 0x01#8 = ⟨0x10#8, flags false false true false⟩ := by decide
theorem test_add8_carry_no_half : add8 0xF0#8 0x10#8 = ⟨0x00#8, flags true false false true⟩ := by decide
theorem test_add8_largest : add8 0xFF#8 0xFF#8 = ⟨0xFE#8, flags false false true true⟩ := by decide
theorem test_add8_nibble_fifteen : add8 0x0E#8 0x01#8 = ⟨0x0F#8, flags false false false false⟩ := by decide
theorem test_add8_sum_255 : add8 0x99#8 0x66#8 = ⟨0xFF#8, flags false false false false⟩ := by decide

/-! ## One step (spec 95 sections 2.4 to 2.6, and the examples of R134 and R135) -/

theorem test_step_add_b : nextOf (step { start 0x0100#16 [(0x0100, 0x80#8)] with
      a := 0x0F#8, b := 0x01#8, f := flags false true false true })
    = some { start 0x0101#16 [(0x0100, 0x80#8)] with
      a := 0x10#8, b := 0x01#8, f := flags false false true false } := by decide
theorem test_step_add_c : nextOf (step { start 0x0200#16 [(0x0200, 0x81#8)] with a := 0x01#8, c := 0xFF#8, d := 0x02#8 })
    = some { start 0x0201#16 [(0x0200, 0x81#8)] with
      a := 0x00#8, c := 0xFF#8, d := 0x02#8, f := flags true false true true } := by decide
theorem test_step_add_d : afterStep { start 0x0000#16 [(0x0000, 0x82#8)] with
      a := 0x00#8, d := 0x00#8, f := flags false true true true }
    = some (0x00#8, flags true false false false, 0x0001#16) := by decide
theorem test_step_add_e : afterStep { start 0x1000#16 [(0x1000, 0x83#8)] with a := 0x80#8, e := 0x80#8 }
    = some (0x00#8, flags true false false true, 0x1001#16) := by decide
theorem test_step_add_h : afterStep { start 0x2000#16 [(0x2000, 0x84#8)] with a := 0x3A#8, h := 0xC6#8, l := 0x00#8 }
    = some (0x00#8, flags true false true true, 0x2001#16) := by decide
theorem test_step_add_l : afterStep { start 0xFFFF#16 [(0xFFFF, 0x85#8)] with a := 0x7F#8, l := 0x01#8 }
    = some (0x80#8, flags false false true false, 0x0000#16) := by decide
theorem test_step_add_a : afterStep { start 0x0300#16 [(0x0300, 0x87#8)] with a := 0x88#8 }
    = some (0x10#8, flags false false true true, 0x0301#16) := by decide

theorem test_step_jp : jumpsTo (jumpAt 0xC3#8 (flags true true true true)) = some 0x0800#16 := by decide
theorem test_step_jp_over_wrap : jumpsTo (start 0xFFFE#16 [(0x0000, 0x30#8), (0xFFFE, 0xC3#8)])
    = some 0x3000#16 := by decide
theorem test_step_jp_nz_taken : jumpsTo (jumpAt 0xC2#8 (flags false true true true)) = some 0x0800#16 := by decide
theorem test_step_jp_nz_not : jumpsTo (jumpAt 0xC2#8 (flags true false false false)) = some 0x0403#16 := by decide
theorem test_step_jp_z_taken_over_wrap : jumpsTo { start 0xFFFF#16 [(0x0000, 0x34#8), (0x0001, 0x12#8), (0xFFFF, 0xCA#8)]
    with f := flags true false false false } = some 0x1234#16 := by decide
theorem test_step_jp_z_not : jumpsTo (jumpAt 0xCA#8 (flags false true true true)) = some 0x0403#16 := by decide
theorem test_step_jp_nc_taken : jumpsTo (jumpAt 0xD2#8 (flags true true true false)) = some 0x0800#16 := by decide
theorem test_step_jp_nc_not_wraps : jumpsTo { start 0xFFFE#16 [(0xFFFE, 0xD2#8)] with f := flags false false false true }
    = some 0x0001#16 := by decide
theorem test_step_jp_c_taken : jumpsTo (jumpAt 0xDA#8 (flags false false false true)) = some 0x0800#16 := by decide
theorem test_step_jp_c_not : jumpsTo (jumpAt 0xDA#8 (flags true true true false)) = some 0x0403#16 := by decide

theorem test_step_unadmitted : faultOf (step (start 0x0100#16 [(0x0100, 0x86#8)]))
    = some (.decodeFailure 0x86#8 false) := by decide
theorem test_step_prefixed : faultOf (step (start 0x0100#16 [(0x0100, 0xCB#8), (0x0101, 0xCB#8)]))
    = some (.decodeFailure 0xCB#8 true) := by decide
theorem test_step_prefixed_over_wrap : faultOf (step (start 0xFFFF#16 [(0x0000, 0x11#8), (0xFFFF, 0xCB#8)]))
    = some (.decodeFailure 0x11#8 true) := by decide
theorem test_step_at_reset : faultOf (step State.reset) = some (.decodeFailure 0x00#8 false) := by decide
theorem test_block_step : nextOf (blockStep (start 0x0400#16 []).toBlock [(0x0400, 0xC3#8), (0x0402, 0x08#8)])
    = some ((start 0x0400#16 []).setPc 0x0800#16) := by decide
theorem test_fetch_word_runs : afterStep (State.reset.withFetchWord 8 0x87)
    = some (0x02#8, flags false false false false, 0x0101#16) := by decide

theorem test_reads_add : stepReads (start 0x0100#16 [(0x0100, 0x80#8)]) = [0x0100#16] := by decide
theorem test_reads_jump_not_taken : stepReads (jumpAt 0xDA#8 (flags true true true false)) = [0x0400#16] := by decide
theorem test_reads_jump_taken : stepReads (jumpAt 0xC3#8 (flags false false false false))
    = [0x0400#16, 0x0401#16, 0x0402#16] := by decide

/-! ## The driver and the end of a run (spec 95 V-FD-6, V-JP-14; R35, R115) -/

theorem test_drive_retry : driveAll Config.params (start 0x0100#16 []) [.step, .step]
    = ([.decodeFailure 0x00#8 false, .decodeFailure 0x00#8 false], start 0x0100#16 []) := by decide
theorem test_drive_past_failure : (driveAll Config.params (start 0x0100#16 [])
      [.step, .changeMemory [(0x0100#16, 0xC3#8)], .step]).2.pc = 0x0000#16 := by decide
theorem test_drive_both_host_ports : (drive Config.params (start 0#16 [])
      (.hostWrite (some (.b, 1#8)) (some (.de, 1#16)))) = (.refused .portConflict, start 0#16 []) := by decide
theorem test_drive_host_write_reg : drive Config.params (start 0#16 []) (.hostWrite (some (.e, 0x9A#8)) none)
    = (.ok, { start 0#16 [] with e := 0x9A#8 }) := by decide
theorem test_drive_host_write_af : drive { Config.params with afWriteMode := .sourceCompat } (start 0#16 [])
    (.hostWrite none (some (.af, 0x12FF#16))) = (.ok, { start 0#16 [] with a := 0x12#8, c := 0xFF#8 }) := by decide
theorem test_port_core_and_host : refusalOf (portWrite .corrected { aWrite := some 1#8, regWrite := some (.b, 1#8) }
    (start 0#16 []).toBlock) = some .portConflict := by decide
theorem test_self_jump_halts : runEnd 3 (start 0x0150#16 [(0x0150, 0xC3#8), (0x0151, 0x50#8), (0x0152, 0x01#8)])
    = .halted (start 0x0150#16 [(0x0150, 0xC3#8), (0x0151, 0x50#8), (0x0152, 0x01#8)]) := by decide
theorem test_run_fails_after_add : runEnd 2 (start 0x0100#16 [(0x0100, 0x80#8)])
    = .failed 0x00#8 false { start 0x0101#16 [(0x0100, 0x80#8)] with a := 0x33#8 } := by decide

/-! ## Witnesses: the hypotheses of the statements can be met together -/

/-- An add about to run: a state for the statements about a step that answers a next state. -/
def adding : State := start 0x0100#16 [(0x0100, 0x80#8)]

/-- A jump about to be taken, and one not. -/
def jumping : State := jumpAt 0xC3#8 (flags false false false false)
def notJumping : State := jumpAt 0xDA#8 (flags false false false false)

theorem witness_ByteUnpacksToFlags : (0xA5#8 : Byte) &&& 0xF0#8 = 0xA0#8 &&& 0xF0#8 := by decide
theorem witness_PairPortLaws : Pair.hl ≠ .af ∧ Pair.bc ≠ .hl ∧ Reg8.c ≠ .a := by decide
theorem witness_RegisterFilePorts : Reg8.b ≠ .a := by decide
theorem witness_RegisterFilePorts_hostWrite :
    nextOf (portWrite .corrected { regWrite := some (.b, 1#8) } (start 0#16 []).toBlock)
      = some ((start 0#16 []).writeReg .b 1#8) ∧
    (some (Reg8.b, (1#8 : Byte)) ≠ none ∧ some (Pair.de, (1#16 : Addr)) ≠ none) := by decide
theorem witness_StepHasTwoOutcomes : (nextOf (step adding)).isSome = true := by decide
theorem witness_WritePortsOfAStep_add :
    (fetchDecode adding.mem adding.pc).result = .decoded .addAB ∧ (nextOf (step adding)).isSome = true := by decide
theorem witness_WritePortsOfAStep_jump :
    (fetchDecode jumping.mem jumping.pc).result = .decoded .jpNN ∧ (nextOf (step jumping)).isSome = true := by decide
theorem witness_WritePortsOfAStep_conflicts :
    let core : WritePorts := { flagsWrite := some (flags true true true true), pairWrite := some (.af, 0#16) }
    let host : WritePorts := { regWrite := some (.a, 0#8), pairWrite := some (.af, 0#16) }
    (core.pairWrite ≠ none ∧ core.flagsWrite ≠ none) ∧ (host.regWrite ≠ none ∧ host.pairWrite ≠ none) := by decide
theorem witness_WritePortsOfAStep_accepted :
    let core : WritePorts := { aWrite := some 0#8, flagsWrite := some (flags true true true true) }
    let host : WritePorts := { pairWrite := some (.af, 0#16) }
    (core.regWrite = none ∧ core.pairWrite = none) ∧
      (host.aWrite = none ∧ host.flagsWrite = none ∧ host.regWrite = none) := by decide

/-- The premises of the seven worked examples of R132 to R138. -/
def exampleState (a : Byte) (r : Reg8) (v : Byte) (pc : Addr) : State :=
  (start pc []).withBlock (((start pc []).writeReg .a a).writeReg r v)
theorem witness_AddExample_b :
    let s := exampleState 0x0F#8 .b 0x01#8 0x0100#16
    s.a = 0x0F#8 ∧ s.b = 0x01#8 ∧ s.pc = 0x0100#16 := by decide
theorem witness_AddExample_c :
    let s := exampleState 0xFF#8 .c 0x01#8 0x0200#16
    s.a = 0xFF#8 ∧ s.c = 0x01#8 ∧ s.pc = 0x0200#16 := by decide
theorem witness_AddExample_d :
    let s := exampleState 0x00#8 .d 0x00#8 0x0000#16
    s.a = 0x00#8 ∧ s.d = 0x00#8 ∧ s.pc = 0x0000#16 := by decide
theorem witness_AddExample_e :
    let s := exampleState 0x80#8 .e 0x80#8 0x1000#16
    s.a = 0x80#8 ∧ s.e = 0x80#8 ∧ s.pc = 0x1000#16 := by decide
theorem witness_AddExample_h :
    let s := exampleState 0x3A#8 .h 0xC6#8 0x2000#16
    s.a = 0x3A#8 ∧ s.h = 0xC6#8 ∧ s.pc = 0x2000#16 := by decide
theorem witness_AddExample_l :
    let s := exampleState 0x7F#8 .l 0x01#8 0xFFFF#16
    s.a = 0x7F#8 ∧ s.l = 0x01#8 ∧ s.pc = 0xFFFF#16 := by decide
theorem witness_AddExample_a :
    let s := exampleState 0x88#8 .a 0x88#8 0x0300#16
    s.a = 0x88#8 ∧ s.a = 0x88#8 ∧ s.pc = 0x0300#16 := by decide

/-- `exec` answers a next state for every instruction: the premise of the frames, at one state. -/
theorem witness_Frames : ∀ i ∈ [Instr.addAB, .addAC, .addAD, .addAE, .addAH, .addAL, .addAA,
    .jpNN, .jpNzNN, .jpZNN, .jpNcNN, .jpCNN], (nextOf (exec i adding)).isSome = true := by decide
theorem witness_JumpExample_always :
    let s := start 0x0150#16 [(0x0150, 0xC3#8), (0x0151, 0x34#8), (0x0152, 0x12#8)]
    s.pc = 0x0150#16 ∧ Memory.read s.mem (0x0150#16 + 1#16) = 0x34#8 ∧
      Memory.read s.mem (0x0150#16 + 2#16) = 0x12#8 := by decide
theorem witness_JumpExamples_conditional : ∀ b : Bool,
    (jumpAt 0xC2#8 (flags b false false b)).f.z = b ∧ (jumpAt 0xC2#8 (flags b false false b)).f.c = b ∧
    (jumpAt 0xC2#8 (flags b false false b)).pc = 0x0400#16 ∧
    Memory.read (jumpAt 0xC2#8 (flags b false false b)).mem (0x0400#16 + 1#16) = 0x00#8 ∧
    Memory.read (jumpAt 0xC2#8 (flags b false false b)).mem (0x0400#16 + 2#16) = 0x08#8 := by decide
theorem witness_JumpCorners :
    let s : State := { start 0xFFFE#16 [] with f := flags false false false true }
    s.pc = 0xFFFE#16 ∧ s.f.c = true := by decide
theorem witness_BaseTable : (decode 0xDA#8 false).isSome = true := by decide
theorem witness_FirstByteTellsLength :
    decode 0x80#8 false = some .addAB ∧ decode 0xC3#8 false = some .jpNN ∧
    (0x86#8 : Byte) ≠ 0xCB#8 ∧ decode 0x86#8 false = none := by decide
theorem witness_DecodeOfEncode :
    Code.wf { instr := .addAA, operand := [] } = true ∧ Code.wf { instr := .jpCNN, operand := [0xFF#8, 0xCB#8] } = true := by
  decide
theorem witness_DecodedBytes : decodeBytes [0xDA#8, 0xFF#8, 0xCB#8, 0x80#8]
    = .ok ({ instr := .jpCNN, operand := [0xFF#8, 0xCB#8] }, [0x80#8]) := by rfl
theorem witness_Fetch :
    Memory.read adding.mem adding.pc ≠ 0xCB#8 ∧ Memory.read [(0x0100, 0xCB#8)] 0x0100#16 = 0xCB#8 ∧
    decode (fetchDecode adding.mem adding.pc).decOpcode (fetchDecode adding.mem adding.pc).decPrefixed = some .addAB ∧
    decode (fetchDecode [] 0#16).decOpcode (fetchDecode [] 0#16).decPrefixed = none := by decide
theorem witness_StepRuns_bytes : decodeBytes (Memory.bytesFrom jumping.mem jumping.pc 3)
    = .ok ({ instr := .jpNN, operand := [0x00#8, 0x08#8] }, []) := by rfl
theorem witness_StepRuns_byte : decode (Memory.read adding.mem adding.pc) false = some .addAB := by decide
theorem witness_DecodeFailure :
    faultOf (step (start 0#16 [])) = some (.decodeFailure 0x00#8 false) ∧
    faultOf (step (start 0#16 [(0, 0xCB#8)])) = some (.decodeFailure 0x00#8 true) := by decide
theorem witness_FailedStep :
    drive Config.params (start 0#16 []) .step = (.decodeFailure 0x00#8 false, start 0#16 []) := by decide
theorem witness_ProgramCounterWraps :
    (nextOf (exec (instrOfForm (.add .l)) (start 0xFFFF#16 []))).isSome = true ∧
    condTrue .z (start 0xFFFE#16 []).f = false ∧
    (nextOf (exec (instrOfForm (.jp .z)) (start 0xFFFE#16 []))).isSome = true ∧
    condTrue .nz (start 0xFFFE#16 []).f = true ∧
    Memory.read [(0xFFFF, 0xCB#8)] (start 0xFFFF#16 []).pc = 0xCB#8 := by decide
theorem witness_Sequencer_jump : (fetchDecode jumping.mem jumping.pc).result = .decoded .jpNN ∧
    (jumpMux .always jumping.f jumping.pc jumping.mem).next = 0x0800#16 ∧ jumpsTo jumping = some 0x0800#16 := by decide
theorem witness_Sequencer_failure : (fetchDecode [] 0#16).result = .failure 0x00#8 false ∧
    faultOf (step (start 0#16 [])) = some (.decodeFailure 0x00#8 false) := by decide
theorem witness_FirstStepAfterReset :
    decode (Memory.read [(0x0100, 0x87#8)] Config.params.entryPc) false = some .addAA := by decide
theorem witness_OnlyAddWrites :
    (nextOf (step adding)).map (fun t => decide (t.a ≠ adding.a ∨ t.f ≠ adding.f)) = some true := by decide
theorem witness_InstructionsRead_add :
    let s' : State := { adding with c := 0xFF#8, f := flags true true true true }
    adding.a = s'.a ∧ adding.readReg .b = s'.readReg .b ∧
      (nextOf (exec .addAB adding)).isSome = true ∧ (nextOf (exec .addAB s')).isSome = true := by decide
theorem witness_InstructionsRead_jump :
    let s' : State := { notJumping with f := flags false true true true }
    notJumping.pc = s'.pc ∧ notJumping.mem = s'.mem ∧ notJumping.f.z = s'.f.z ∧
      (nextOf (exec .jpZNN notJumping)).isSome = true ∧ (nextOf (exec .jpZNN s')).isSome = true := by decide
theorem witness_InstructionsRead_jump_carry :
    let s' : State := { notJumping with f := flags true true true false }
    notJumping.pc = s'.pc ∧ notJumping.mem = s'.mem ∧ notJumping.f.c = s'.f.c ∧ notJumping.f ≠ s'.f ∧
      (nextOf (exec .jpCNN notJumping)).isSome = true ∧ (nextOf (exec .jpCNN s')).isSome = true ∧
      (nextOf (exec .jpNN notJumping)).isSome = true ∧ (nextOf (exec .jpNN s')).isSome = true := by decide
theorem witness_StepNeverWrites : (nextOf (step jumping)).isSome = true := by decide
theorem witness_StepDepends : ((stepReads notJumping).all fun addr =>
    Memory.read [(0x0400, 0xDA#8), (0x0401, 0x99#8)] addr == Memory.read notJumping.mem addr) = true := by decide
theorem witness_Memory_wf : Memory.wf adding.mem = true ∧ (0x0001#16 : Addr) ≠ 0x0000#16 := by decide
theorem witness_Sessions : State.wf State.reset = true ∧ State.wf adding = true ∧
    (nextOf (step adding)).isSome = true := by decide
theorem witness_NextFetch :
    decode 0x80#8 false = some .addAB ∧ (0x86#8 : Byte) ≠ 0xCB#8 ∧ decode 0x86#8 false = none := by decide
/-- One session that changes the byte at pc twice, the second time to the prefix, and the byte after it. -/
theorem witness_NextFetch_cells :
    driveAll Config.params adding [.changeMemory [(0x0100#16, 0x80#8), (0x0101#16, 0x37#8), (0x0100#16, 0xCB#8)], .step]
      = ([.ok, .decodeFailure 0x37#8 true], { adding with mem := [(0x0100, 0xCB#8), (0x0101, 0x37#8)] }) := by decide
theorem witness_PlacedWord : State.wf State.reset = true ∧ decodeTableWord 24 0x0800CA = some .jpZNN := by decide
theorem witness_SelfJump :
    selfJump (start 0x0150#16 [(0x0150, 0xC3#8), (0x0151, 0x50#8), (0x0152, 0x01#8)]) = true := by decide
/-- A jump to a self-jump: the self-jump is reached after exactly one step. -/
def toSelfJump : State := start 0x0200#16 [(0x0150, 0xC3#8), (0x0151, 0x50#8), (0x0152, 0x01#8),
  (0x0200, 0xC3#8), (0x0201, 0x50#8), (0x0202, 0x01#8)]
theorem witness_RunEnds_selfJump_at_bound : runEnd 1 toSelfJump = .running { toSelfJump with pc := 0x0150#16 } ∧
    selfJump { toSelfJump with pc := 0x0150#16 } = true := by decide
theorem witness_RunEnds_selfJump_within : runEnd 2 toSelfJump = .halted { toSelfJump with pc := 0x0150#16 } := by decide
theorem witness_RunEnds : runEnd 1 adding = .running { adding with a := 0x33#8, pc := 0x0101#16 } := by decide

end Sys2Proof.Tests
end

/-! PROOF. The statements of 10_state.md: flag packing, register pairs, the wrapping program counter. -/

namespace Sys2Proof.Machine

/-! ## Flag packing (R24, R25) -/

/-- Each flag that is set contributes its own bit (R24); the sixteen flag values are all there are. -/
theorem flagsToByte_eq_or (f : Flags) :
    flagsToByte f =
      (if f.z then 0x80#8 else 0#8) ||| (if f.n then 0x40#8 else 0#8) ||| (if f.h then 0x20#8 else 0#8) |||
        (if f.c then 0x10#8 else 0#8) := by
  obtain ⟨z, n, h, c⟩ := f
  revert z n h c
  decide

theorem flagsToByte_and_lowNibble (f : Flags) : flagsToByte f &&& 0x0F#8 = 0#8 := by
  obtain ⟨z, n, h, c⟩ := f
  revert z n h c
  decide

/-- Unpacking does not see the low nibble (R25). -/
theorem byteToFlags_and_highNibble (v : Byte) : byteToFlags (v &&& 0xF0#8) = byteToFlags v := by
  simp [byteToFlags]

/-- Settles O5, from the packed form as an or and its zero low nibble. -/
theorem flagsPackIntoHighNibble : Obligations.FlagsPackIntoHighNibble :=
  fun f => ⟨flagsToByte_eq_or f, flagsToByte_and_lowNibble f⟩

/-- Settles O6: both bytes unpack as their common high nibble does. -/
theorem byteUnpacksToFlags : Obligations.ByteUnpacksToFlags := by
  refine ⟨fun _ => rfl, fun v w hvw => ?_⟩
  calc byteToFlags v = byteToFlags (v &&& 0xF0#8) := (byteToFlags_and_highNibble v).symm
    _ = byteToFlags (w &&& 0xF0#8) := by rw [hvw]
    _ = byteToFlags w := byteToFlags_and_highNibble w

/-! ## Register pairs (R28 to R32) -/

section GetPair
variable (s : Block)
@[simp] theorem Block.getPair_af : s.getPair .af = s.a ++ flagsToByte s.f := rfl
@[simp] theorem Block.getPair_bc : s.getPair .bc = s.b ++ s.c := rfl
@[simp] theorem Block.getPair_de : s.getPair .de = s.d ++ s.e := rfl
@[simp] theorem Block.getPair_hl : s.getPair .hl = s.h ++ s.l := rfl
end GetPair

/-! A pair write is one update of its two halves (R31, R32). -/
section SetPair
variable (mode : AfWriteMode) (s : Block) (v : Addr)
theorem Block.setPair_bc : s.setPair mode .bc v = { s with b := highByte v, c := lowByte v } := rfl
theorem Block.setPair_de : s.setPair mode .de v = { s with d := highByte v, e := lowByte v } := rfl
theorem Block.setPair_hl : s.setPair mode .hl v = { s with h := highByte v, l := lowByte v } := rfl
theorem Block.setPair_af_corrected :
    s.setPair .corrected .af v = { s with a := highByte v, f := byteToFlags (lowByte v) } := rfl
theorem Block.setPair_af_sourceCompat :
    s.setPair .sourceCompat .af v = { s with a := highByte v, c := lowByte v } := rfl
end SetPair

/-- The low nibble of af is that of the packed flags, so it is zero (R30). -/
theorem Block.getPair_af_and_lowNibble (s : Block) : s.getPair .af &&& 0x000F#16 = 0#16 := by
  calc s.getPair .af &&& 0x000F#16
      = (s.a ++ flagsToByte s.f) &&& (0#8 ++ 0x0F#8) := rfl
    _ = (s.a &&& 0#8) ++ (flagsToByte s.f &&& 0x0F#8) := BitVec.and_append
    _ = 0#16 := by simp [flagsToByte_and_lowNibble]

/-- Settles O8: the read is the two halves by definition, and a write to a half replaces that half alone. -/
theorem pairReadsItsTwoHalves : Obligations.PairReadsItsTwoHalves := by
  refine ⟨fun s => ⟨s.getPair_af, s.getPair_bc, s.getPair_de, s.getPair_hl⟩,
    Block.getPair_af_and_lowNibble, fun s v => ?_⟩
  simp

/-- Settles O9, from what a pair write updates. -/
theorem pairWriteWritesItsTwoHalves : Obligations.PairWriteWritesItsTwoHalves :=
  fun s v => ⟨fun mode => s.setPair_bc mode v, fun mode => s.setPair_de mode v, fun mode => s.setPair_hl mode v,
    s.setPair_af_corrected v, s.setPair_af_sourceCompat v⟩

/-! ## The wrapping program counter (R38) -/

/-- `pc +16 k` as a number (R11, R38). -/
theorem toNat_addr_add (pc : Addr) (k : Nat) : (pc + BitVec.ofNat 16 k).toNat = (pc.toNat + k) % 65536 := by
  simp [BitVec.toNat_add]

/-- The block a form's instruction leaves is that of the form's shared execute rule (R107, phase 2). -/
theorem toBlock_of_exec_instrOfForm {form : Form} {s t : State} (h : exec (instrOfForm form) s = .next t) :
    t.toBlock = executeForm form s.toBlock s.mem := by
  rw [exec_of_form, form_instrOfForm] at h
  cases h
  rfl

theorem pc_of_exec_add {r : Reg8} {s t : State} (h : exec (instrOfForm (.add r)) s = .next t) :
    t.pc = s.pc + 1#16 := by
  simp [toBlock_of_exec_instrOfForm h]

theorem pc_of_exec_jp_notTaken {cond : Cond} {s t : State} (hc : condTrue cond s.f = false)
    (h : exec (instrOfForm (.jp cond)) s = .next t) : t.pc = s.pc + 3#16 := by
  simp [toBlock_of_exec_instrOfForm h, jumpMux_notTaken _ _ hc]

/-- Settles O37: each of the four addresses is `pc +16 k`, whose number is taken modulo 65536. -/
theorem programCounterWraps : Obligations.ProgramCounterWraps := by
  refine ⟨fun s t r h => ?add, fun s t cond hc h => ?notTaken, fun s cond hc => ?taken, fun s hp => ?prefixed⟩
  case add => rw [pc_of_exec_add h, toNat_addr_add]
  case notTaken => rw [pc_of_exec_jp_notTaken hc h, toNat_addr_add]
  case taken => simp only [jumpMux_taken _ _ hc, List.map_cons, List.map_nil, toNat_addr_add]
  case prefixed => simp only [fetchDecode_prefixed hp, List.map_cons, List.map_nil, toNat_addr_add]

end Sys2Proof.Machine

/-! PROOF. The statements of 20_memory.md: no step writes memory, and the addresses a step reads. -/

namespace Sys2Proof.Machine

/-! ## No write (R52) -/

/-- A meaning replaces the block alone, whatever the instruction (R52). -/
theorem mem_of_exec {i : Instr} {s t : State} (h : exec i s = .next t) : t.mem = s.mem := by
  rw [exec_of_form] at h
  cases h
  exact s.withBlock_mem _

theorem mem_of_step {s t : State} (h : step s = .next t) : t.mem = s.mem := by
  obtain ⟨i, -, hexec⟩ := step_next h
  exact mem_of_exec hexec

/-- Settles O41: the memory is the old one, so each address reads as it did. -/
theorem stepNeverWritesMemory : Obligations.StepNeverWritesMemory := by
  intro s t h
  have hmem : t.mem = s.mem := mem_of_step h
  exact ⟨hmem, fun addr => by rw [hmem]⟩

/-! ## The reads of one step (R56) -/

theorem fetchAnswer_of_some {op : Byte} {p : Bool} {i : Instr} (h : decode op p = some i) :
    fetchAnswer op p = .decoded i := by
  simp [fetchAnswer, h]

theorem fetchAnswer_of_none {op : Byte} {p : Bool} (h : decode op p = none) :
    fetchAnswer op p = .failure op p := by
  simp [fetchAnswer, h]

theorem jumpMux_reads (cond : Cond) (f : Flags) (pc : Addr) (m : Memory) :
    (jumpMux cond f pc m).reads = if condTrue cond f then [pc + 1#16, pc + 2#16] else [] := by
  cases hc : condTrue cond f with
  | true => simp [jumpMux_taken pc m hc]
  | false => simp [jumpMux_notTaken pc m hc]

/-- The secondary table has no instruction, so nothing is read beyond the prefixed byte (R79, R103). -/
theorem stepReads_prefixed {s : State} (hp : Memory.read s.mem s.pc = prefixByte) :
    stepReads s = [s.pc, s.pc + 1#16] := by
  simp [stepReads, fetchDecode_prefixed hp, fetchAnswer_of_none (decode_secondary _)]

section Base
variable {s : State} (hp : Memory.read s.mem s.pc ≠ prefixByte)
include hp

theorem stepReads_failure (hd : decode (Memory.read s.mem s.pc) false = none) : stepReads s = [s.pc] := by
  simp [stepReads, fetchDecode_base hp, fetchAnswer_of_none hd]

theorem stepReads_add {i : Instr} {r : Reg8} (hd : decode (Memory.read s.mem s.pc) false = some i)
    (hf : i.form = .add r) : stepReads s = [s.pc] := by
  simp [stepReads, fetchDecode_base hp, fetchAnswer_of_some hd, hf]

theorem stepReads_jp {i : Instr} {cond : Cond} (hd : decode (Memory.read s.mem s.pc) false = some i)
    (hf : i.form = .jp cond) :
    stepReads s = if condTrue cond s.f then [s.pc, s.pc + 1#16, s.pc + 2#16] else [s.pc] := by
  have hreads : stepReads s = s.pc :: (jumpMux cond s.f s.pc s.mem).reads := by
    simp [stepReads, fetchDecode_base hp, fetchAnswer_of_some hd, hf]
  rw [hreads, jumpMux_reads]
  split <;> rfl

end Base

/-- Settles O42, one case per answer of the fetch: the prefix byte, a table miss, an add, a jump. -/
theorem readsOfOneStep : Obligations.ReadsOfOneStep := by
  intro s
  by_cases hp : Memory.read s.mem s.pc = 0xCB#8
  · rw [if_pos hp, stepReads_prefixed hp]
  · rw [if_neg hp]
    cases hd : decode (Memory.read s.mem s.pc) false with
    | none => exact stepReads_failure hp hd
    | some i =>
      cases hf : i.form with
      | add r => simp [stepReads_add hp hd hf, hf]
      | jp cond => simp [stepReads_jp hp hd hf, hf]

end Sys2Proof.Machine

/-! PROOF. The statements of 30_encoding.md: the two tables and the operand fields. -/

namespace Sys2Proof

/-! ## The base table by opcode byte (R78) -/

/-- The base table is the inverse of the opcode byte: it answers an instruction at that instruction's byte alone. -/
theorem decode_eq_some_iff {op : Byte} {i : Instr} : decode op false = some i ↔ op = opcodeByte i := by
  cases i with
  | addAB => exact Laws.Opcode.addAB op
  | addAC => exact Laws.Opcode.addAC op
  | addAD => exact Laws.Opcode.addAD op
  | addAE => exact Laws.Opcode.addAE op
  | addAH => exact Laws.Opcode.addAH op
  | addAL => exact Laws.Opcode.addAL op
  | addAA => exact Laws.Opcode.addAA op
  | jpNN => exact Laws.Opcode.jpNN op
  | jpNzNN => exact Laws.Opcode.jpNzNN op
  | jpZNN => exact Laws.Opcode.jpZNN op
  | jpNcNN => exact Laws.Opcode.jpNcNN op
  | jpCNN => exact Laws.Opcode.jpCNN op

theorem opcodeByte_mem_admitted (i : Instr) : opcodeByte i ∈
    [0x80#8, 0x81#8, 0x82#8, 0x83#8, 0x84#8, 0x85#8, 0x87#8, 0xC2#8, 0xC3#8, 0xCA#8, 0xD2#8, 0xDA#8] := by
  cases i <;> decide

/-- No instruction's opcode byte is the prefix, so the base table does not admit it (R80). -/
theorem decode_prefixByte : decode prefixByte false = none :=
  Option.eq_none_iff_forall_ne_some.2 fun i hi => opcodeByte_ne_prefix i (decode_eq_some_iff.1 hi).symm

/-- Settles O21: the twelve bytes are the instructions' opcode bytes, and a byte that decodes is the opcode byte of
the instruction it decodes to. -/
theorem baseTableAdmitsTwelveBytes : Obligations.BaseTableAdmitsTwelveBytes := by
  refine ⟨decode_opcodeByte .addAB, decode_opcodeByte .addAC, decode_opcodeByte .addAD, decode_opcodeByte .addAE,
    decode_opcodeByte .addAH, decode_opcodeByte .addAL, decode_opcodeByte .addAA, decode_opcodeByte .jpNN,
    decode_opcodeByte .jpNzNN, decode_opcodeByte .jpZNN, decode_opcodeByte .jpNcNN, decode_opcodeByte .jpCNN,
    fun op hop => ?_⟩
  obtain ⟨i, hi⟩ := Option.isSome_iff_exists.1 hop
  rw [decode_eq_some_iff.1 hi]
  exact opcodeByte_mem_admitted i

/-- Settles O22: the secondary table is constantly none, and the base table misses at the prefix byte. -/
theorem secondaryTableIsEmpty : Obligations.SecondaryTableIsEmpty :=
  ⟨decode_secondary, decode_prefixByte⟩

/-! ## The operand fields (R74, R75) -/

/-- The format `R8` as the decoder splits it: the upper five bits, and the `r` field below them (R71). -/
theorem bitField_high_append (x : BitVec 5) (r : BitVec 3) : bitField 3 5 (x ++ r) = x :=
  BitVec.extractLsb'_append_eq_left

theorem bitField_low_append (x : BitVec 5) (r : BitVec 3) : bitField 0 3 (x ++ r) = r :=
  BitVec.extractLsb'_append_eq_right

/-- `10000rrr` is the add of the register `r` names, and a miss where it names none (R74, R78). -/
theorem decode_addOpcode (r : BitVec 3) :
    decode (0b10000#5 ++ r) false = (regOfField r).map fun q => instrOfForm (.add q) := by
  have hbase : decodeBase (0b10000#5 ++ r) = (regOfField r).map Form.add := by
    rw [decodeBase, bitField_high_append, bitField_low_append, if_pos rfl]
  calc decode (0b10000#5 ++ r) false
      = ((regOfField r).map Form.add).map instrOfForm := congrArg (Option.map instrOfForm) hbase
    _ = (regOfField r).map fun q => instrOfForm (.add q) := Option.map_map ..

theorem decode_jumpOpcode (cond : Cond) : decode (jumpOpcode cond) false = some (instrOfForm (.jp cond)) := by
  have hop : opcodeByte (instrOfForm (.jp cond)) = jumpOpcode cond := by simp [opcodeByte]
  exact decode_eq_some_iff.2 hop.symm

/-- The `cc` field's four values are the four conditional jumps' opcode bytes (R72, R75). -/
theorem jumpOpcode_condOfField : ∀ cc : BitVec 2, jumpOpcode (condOfField cc) = 0b110#3 ++ cc ++ 0b010#3 := by
  decide

/-- `0b110`, the field value of no register, names none (R74). -/
theorem regOfField_memoryOperand : regOfField 0b110#3 = none := rfl

/-- Settles O24: the `r` table from the encoder's field values, and the three opcode formats decode by their fields. -/
theorem operandFieldsSelect : Obligations.OperandFieldsSelect := by
  refine ⟨?registers, ⟨rfl, rfl, rfl, rfl⟩, decode_addOpcode, fun cc => ?conditional, decode_jumpOpcode .always⟩
  case registers =>
    exact ⟨regOfField_regCode .b, regOfField_regCode .c, regOfField_regCode .d, regOfField_regCode .e,
      regOfField_regCode .h, regOfField_regCode .l, regOfField_memoryOperand, regOfField_regCode .a⟩
  case conditional =>
    rw [← jumpOpcode_condOfField]
    exact decode_jumpOpcode (condOfField cc)

end Sys2Proof

/-! PROOF. The statements of 40_fetch_decode_step.md: the fetch, the outcomes of a step, the sequencer, the end of
a run. -/

namespace Sys2Proof.Machine

/-! ## The fetch (R102 to R104) -/

/-- Whichever byte was sent to the decoder, the fetch takes the decoder's answer to it (R104). -/
theorem fetchDecode_result (m : Memory) (pc : Addr) :
    (fetchDecode m pc).result = fetchAnswer (fetchDecode m pc).decOpcode (fetchDecode m pc).decPrefixed := by
  by_cases hp : Memory.read m pc = prefixByte
  · rw [fetchDecode_prefixed hp]
  · rw [fetchDecode_base hp]

/-- Settles O30: the ports by whether the byte at pc is the prefix, the answer by the decoder's. -/
theorem fetchReadsThenDecodes : Obligations.FetchReadsThenDecodes := by
  refine fun m pc => ⟨fun hp => ?base, fun hp => ?prefixed, fun i hi => ?decoded, fun hd => ?failure⟩
  case base => rw [fetchDecode_base hp]; exact ⟨rfl, rfl, rfl⟩
  case prefixed => rw [fetchDecode_prefixed hp]; exact ⟨rfl, rfl, rfl⟩
  case decoded => rw [fetchDecode_result, fetchAnswer_of_some hi]
  case failure => rw [fetchDecode_result, fetchAnswer_of_none hd]

/-! ## The outcomes of a step (R106) -/

/-- A step runs the instruction it fetched, which always answers a next state, or raises the fetch's failure. -/
theorem step_cases (s : State) :
    (∃ i t, (fetchDecode s.mem s.pc).result = .decoded i ∧ exec i s = .next t ∧ step s = .next t) ∨
    ∃ op b, (fetchDecode s.mem s.pc).result = .failure op b ∧ step s = .fault (.decodeFailure op b) := by
  cases hr : (fetchDecode s.mem s.pc).result with
  | decoded i => exact .inl ⟨i, _, rfl, exec_of_form i s, by rw [step_of_decoded hr, exec_of_form]⟩
  | failure op b => exact .inr ⟨op, b, rfl, step_of_failure hr⟩

theorem step_next_or_failure (s : State) :
    (∃ t, step s = .next t) ∨ ∃ op b, step s = .fault (.decodeFailure op b) := by
  obtain ⟨_, t, -, -, hs⟩ | ⟨op, b, -, hs⟩ := step_cases s
  · exact .inl ⟨t, hs⟩
  · exact .inr ⟨op, b, hs⟩

/-- Settles O32, from the two cases of a step and the driver's report of a next state. -/
theorem stepHasTwoOutcomes : Obligations.StepHasTwoOutcomes :=
  ⟨step_next_or_failure, fun _ _ _ hs => drive_step_of_next hs⟩

/-! ## The next pc (R110 to R112) -/

theorem jumpMux_next (cond : Cond) (f : Flags) (pc : Addr) (m : Memory) :
    (jumpMux cond f pc m).next = if condTrue cond f then jumpTarget m pc else pc + 3#16 := by
  cases hc : condTrue cond f with
  | true => simp [jumpMux_taken pc m hc]
  | false => simp [jumpMux_notTaken pc m hc]

/-- The pc a meaning leaves is R110's next pc, where a jump's `jmux_next` is the mux's answer. -/
theorem pc_of_exec {i : Instr} {s t : State} {jn : Addr}
    (hjn : ∀ cond, i.form = .jp cond → jn = (jumpMux cond s.f s.pc s.mem).next) (h : exec i s = .next t) :
    t.pc = nextPc s.pc jn i.form := by
  obtain ⟨r, hf, rfl⟩ | ⟨cond, hf, rfl⟩ := exec_cases h
  · rw [hf]; rfl
  · rw [hf, hjn cond hf]; rfl

/-- Settles O35: a meaning's pc by the instruction's form; a failure leaves the old state; of the host's actions
only reset reaches pc. -/
theorem programCounterWriters : Obligations.ProgramCounterWriters := by
  refine ⟨fun s t i hr hs => ?next, fun p s op b hs => ?failure,
    fun p s reg pair => (drive_hostWrite_pc_mem p s reg pair).1, fun _ _ _ => rfl, fun _ _ => rfl⟩
  case next =>
    rw [step_of_decoded hr] at hs
    obtain ⟨r, hf, rfl⟩ | ⟨cond, hf, rfl⟩ := exec_cases hs
    · rw [hf]
    · rw [hf]
      exact jumpMux_next cond s.f s.pc s.mem
  case failure => rw [drive_step_of_failure hs]

@[simp] theorem sequencer_decoded (pc : Addr) (i : Instr) (jn : Addr) :
    sequencer pc (.decoded i) jn = { next := nextPc pc jn i.form, pcWe := true } := rfl

@[simp] theorem sequencer_failure (pc : Addr) (op : Byte) (b : Bool) (jn : Addr) :
    sequencer pc (.failure op b) jn = { next := pc, pcWe := false } := rfl

/-- Settles O36, one case per answer of the fetch. -/
theorem sequencerLoadsProgramCounter : Obligations.SequencerLoadsProgramCounter := by
  intro s jn hjn
  obtain ⟨i, t, hr, hexec, hs⟩ | ⟨op, b, hr, hs⟩ := step_cases s
  · have hpc : t.pc = nextPc s.pc jn i.form := pc_of_exec (fun cond => hjn i cond hr) hexec
    simp [hr, hs, hpc]
  · simp [hr, hs]

/-! ## The end of a run (R115) -/

/-- A self-jump jumps to where it is: its step answers the state it began in. -/
theorem step_of_selfJump {s : State} (h : selfJump s = true) : step s = .next s := by
  obtain ⟨hop, htarget⟩ : Memory.read s.mem s.pc = 0xC3#8 ∧ jumpTarget s.mem s.pc = s.pc := by
    simpa [selfJump] using h
  have hfetch : (fetchDecode s.mem s.pc).result = .decoded .jpNN := by
    rw [fetchDecode_base (hop ▸ opcodeByte_ne_prefix .jpNN), hop]
    exact fetchAnswer_of_some (decode_opcodeByte .jpNN)
  have hblock : executeForm (.jp .always) s.toBlock s.mem = s.toBlock := by
    simp [jumpMux_next, condTrue, htarget]
  rw [step_of_decoded hfetch, exec_of_form]
  exact congrArg (fun b => Host.Outcome.next (s.withBlock b)) hblock

/-- Induction over a run as R115 cuts it: the bound is reached, a self-jump, a failing step, or a step and the rest
of the run. -/
theorem run_induction {motive : Nat → State → Prop} (bound : ∀ s, motive 0 s)
    (halt : ∀ n s, selfJump s = true → motive (n + 1) s)
    (failure : ∀ n s op b, selfJump s = false → step s = .fault (.decodeFailure op b) → motive (n + 1) s)
    (next : ∀ n s t, selfJump s = false → step s = .next t → motive n t → motive (n + 1) s)
    (n : Nat) (s : State) : motive n s := by
  induction n generalizing s with
  | zero => exact bound s
  | succ n ih =>
    cases hj : selfJump s with
    | true => exact halt n s hj
    | false =>
      obtain ⟨t, hs⟩ | ⟨op, b, hs⟩ := step_next_or_failure s
      · exact next n s t hj hs (ih t)
      · exact failure n s op b hj hs

/-- `k` steps lead from `s` to `u`, and no state before `u` is a self-jump: `u` is a state of the run before or at
its end (R115). -/
def RunsTo (k : Nat) (s u : State) : Prop :=
  Sys2Proof.core.run k s = .next u ∧
    ∀ j, j < k → ∀ v : State, Sys2Proof.core.run j s = .next v → selfJump v = false

/-- `u` is such a state, reached in fewer than `n` steps. -/
def RunsToWithin (n : Nat) (s u : State) : Prop :=
  ∃ k, k < n ∧ RunsTo k s u

theorem core_run_zero_eq_next {s u : State} : Sys2Proof.core.run 0 s = .next u ↔ s = u :=
  iff_of_eq (Host.Outcome.next.injEq s u)

theorem runsTo_zero {s u : State} : RunsTo 0 s u ↔ s = u := by
  simp [RunsTo, core_run_zero_eq_next]

/-- `RunsTo` by the first step of the run. -/
theorem runsTo_succ {k : Nat} {s u : State} :
    RunsTo (k + 1) s u ↔ selfJump s = false ∧ ∃ t, step s = .next t ∧ RunsTo k t u := by
  rw [RunsTo, Nat.forall_lt_succ_left]
  obtain ⟨t, hs⟩ | ⟨op, b, hs⟩ := step_next_or_failure s
  · simp [RunsTo, core_run_succ, hs, core_run_zero_eq_next, and_left_comm]
  · simp [core_run_succ, hs]

theorem not_runsToWithin_zero (s u : State) : ¬ RunsToWithin 0 s u := by
  simp [RunsToWithin]

theorem runsToWithin_succ {n : Nat} {s u : State} :
    RunsToWithin (n + 1) s u ↔ s = u ∨ selfJump s = false ∧ ∃ t, step s = .next t ∧ RunsToWithin n t u := by
  rw [RunsToWithin, Nat.exists_lt_succ_left, runsTo_zero]
  simp only [runsTo_succ]
  exact or_congr_right ⟨fun ⟨k, hk, hj, t, hs, hr⟩ => ⟨hj, t, hs, k, hk, hr⟩,
    fun ⟨hj, t, hs, k, hk, hr⟩ => ⟨k, hk, hj, t, hs, hr⟩⟩

section RunsToWithin
variable (n : Nat) {s t u : State} {op : Byte} {b : Bool}

theorem runsToWithin_of_selfJump (hj : selfJump s = true) : RunsToWithin (n + 1) s u ↔ s = u := by
  simp [runsToWithin_succ, hj]

theorem runsToWithin_of_failure (hs : step s = .fault (.decodeFailure op b)) : RunsToWithin (n + 1) s u ↔ s = u := by
  simp [runsToWithin_succ, hs]

theorem runsToWithin_of_next (hj : selfJump s = false) (hs : step s = .next t) (hsu : s ≠ u) :
    RunsToWithin (n + 1) s u ↔ RunsToWithin n t u := by
  simp [runsToWithin_succ, hj, hs, hsu]

end RunsToWithin

theorem runEnd_eq_halted_iff (n : Nat) (s u : State) :
    runEnd n s = .halted u ↔ selfJump u = true ∧ RunsToWithin n s u := by
  induction n, s using run_induction with
  | bound s => exact iff_of_false nofun fun h => not_runsToWithin_zero s u h.2
  | halt n s hj =>
    rw [runEnd_of_selfJump n hj, runsToWithin_of_selfJump n hj, RunEnd.halted.injEq]
    exact ⟨fun hsu => ⟨hsu ▸ hj, hsu⟩, fun h => h.2⟩
  | failure n s op b hj hs =>
    rw [runEnd_of_failure n hj hs, runsToWithin_of_failure n hs]
    refine iff_of_false nofun ?_
    rintro ⟨hu, rfl⟩
    simp [hj] at hu
  | next n s t hj hs ih =>
    rw [runEnd_of_next n hj hs, ih]
    refine and_congr_right fun hu => (runsToWithin_of_next n hj hs ?_).symm
    rintro rfl
    simp [hj] at hu

theorem runEnd_eq_failed_iff (n : Nat) (s u : State) (op : Byte) (b : Bool) :
    runEnd n s = .failed op b u ↔ step u = .fault (.decodeFailure op b) ∧ RunsToWithin n s u := by
  induction n, s using run_induction with
  | bound s => exact iff_of_false nofun fun h => not_runsToWithin_zero s u h.2
  | halt n s hj =>
    rw [runEnd_of_selfJump n hj, runsToWithin_of_selfJump n hj]
    refine iff_of_false nofun ?_
    rintro ⟨hu, rfl⟩
    simp [step_of_selfJump hj] at hu
  | failure n s op' b' hj hs =>
    rw [runEnd_of_failure n hj hs, runsToWithin_of_failure n hs, RunEnd.failed.injEq]
    constructor
    · rintro ⟨rfl, rfl, rfl⟩
      exact ⟨hs, rfl⟩
    · rintro ⟨hu, rfl⟩
      simpa [hs] using hu
  | next n s t hj hs ih =>
    rw [runEnd_of_next n hj hs, ih]
    refine and_congr_right fun hu => (runsToWithin_of_next n hj hs ?_).symm
    rintro rfl
    simp [hs] at hu

theorem runEnd_eq_running_iff (n : Nat) (s u : State) : runEnd n s = .running u ↔ RunsTo n s u := by
  induction n, s using run_induction with
  | bound s => rw [runEnd, RunEnd.running.injEq, runsTo_zero]
  | halt n s hj => simp [runEnd_of_selfJump n hj, runsTo_succ, hj]
  | failure n s op b hj hs => simp [runEnd_of_failure n hj hs, runsTo_succ, hs]
  | next n s t hj hs ih => simp [runEnd_of_next n hj hs, runsTo_succ, hj, hs, ih]

theorem safeRun (n : Nat) (s : State) : SafeRun n s := by
  intro r
  induction n, s using run_induction with
  | bound s => simp [runEnd]
  | halt n s hj => simp [runEnd_of_selfJump n hj]
  | failure n s op b hj hs => simp [runEnd_of_failure n hj hs]
  | next n s t hj hs ih => rwa [runEnd_of_next n hj hs]

/-- Settles O50, each way a run can come out by induction over the run. -/
theorem runEndsAsTheRuleSays : Obligations.RunEndsAsTheRuleSays :=
  fun n s u => ⟨runEnd_eq_halted_iff n s u, runEnd_eq_failed_iff n s u, runEnd_eq_running_iff n s u, safeRun n s⟩

end Sys2Proof.Machine

/-! PROOF. The statements of 41_alu_add.md: the ALU's add and the seven ADD A,r. -/

namespace Sys2Proof.Machine

/-! ## The ALU (R130) -/

/-- The mask of H's rule keeps the low nibble. -/
theorem toNat_and_lowNibble (x : Byte) : (x &&& 0x0F#8).toNat = x.toNat % 16 :=
  (BitVec.toNat_and x 0x0F#8).trans (Nat.and_two_pow_sub_one_eq_mod x.toNat 4)

/-- The add on natural numbers: the sum narrowed once, and each flag a comparison (R130). -/
theorem add8_eq (x y : Byte) :
    add8 x y = { res := BitVec.ofNat 8 (x.toNat + y.toNat)
                 flags := { z := decide ((x.toNat + y.toNat) % 256 = 0)
                            n := false
                            h := decide (x.toNat % 16 + y.toNat % 16 > 15)
                            c := decide (x.toNat + y.toNat > 255) } } := by
  have hres : BitVec.ofNat 8 ((x.toNat + y.toNat) % 256) = BitVec.ofNat 8 (x.toNat + y.toNat) :=
    BitVec.eq_of_toNat_eq (by simp)
  have hzero : BitVec.ofNat 8 (x.toNat + y.toNat) = 0#8 ↔ (x.toNat + y.toNat) % 256 = 0 := by
    simp [← BitVec.toNat_inj]
  simp only [add8, hres, hzero, toNat_and_lowNibble]

/-- Settles O13: the result and Z from the add on natural numbers; N, H and C are the rule's own. -/
theorem aluAddsWithFlags : Obligations.AluAddsWithFlags := by
  refine fun x y => ⟨?res, ?z, rfl, rfl, rfl⟩
  case res => rw [add8_eq, BitVec.toNat_ofNat]
  case z => rw [add8_eq]

/-! A byte added to itself (R138): a shift, and the two carries are the bits that leave their nibbles. -/
section AddSelf
variable (x : Byte)

theorem add8_self_res : (add8 x x).res = x <<< 1 := by
  apply BitVec.eq_of_toNat_eq
  rw [add8_eq, BitVec.toNat_ofNat, BitVec.toNat_shiftLeft, Nat.shiftLeft_eq]
  omega

theorem add8_self_h : (add8 x x).flags.h = x.getLsbD 3 := by
  rw [add8_eq, BitVec.getLsbD, Nat.testBit_eq_decide_div_mod_eq, decide_eq_decide]
  omega

theorem add8_self_c : (add8 x x).flags.c = x.getLsbD 7 := by
  have hx : x.toNat < 256 := x.isLt
  rw [add8_eq, BitVec.getLsbD, Nat.testBit_eq_decide_div_mod_eq, decide_eq_decide]
  omega

end AddSelf

/-! ## The seven adds (R131 to R138) -/

section Add
variable {i : Instr} {r : Reg8}

/-- An add's meaning writes a, the flags and pc at once (R131). -/
theorem exec_add (hi : i.form = .add r) (s : State) :
    exec i s = .next { s with a := (add8 s.a (s.readReg r)).res, f := (add8 s.a (s.readReg r)).flags,
                              pc := s.pc + 1#16 } := by
  rw [exec_of_form, hi]
  rfl

/-- R131 for any instruction of the add form, the source being the register the form names. -/
theorem addRule_of_form (hi : i.form = .add r) :
    Statements.AddRule (opcodeByte i) i (fun s => s.readReg r) := by
  refine ⟨decode_opcodeByte i, rfl, fun s => ?_⟩
  rw [exec_add hi, add8_eq]

/-- A worked example of an add is one value of the ALU; the source keeps its byte unless it is a, which then holds
the result. -/
theorem addExample_of_form {a v a' : Byte} {f' : Flags} (pc : Addr) (hi : i.form = .add r)
    (halu : add8 a v = { res := a', flags := f' }) :
    Statements.AddExample i (fun s => s.readReg r) a v pc a' (if r = .a then a' else v) f' (pc + 1#16) := by
  rintro s rfl rfl rfl
  refine ⟨_, exec_add hi s, ?_⟩
  rw [halu]
  refine ⟨rfl, ?source, rfl, rfl⟩
  case source => cases r <;> rfl

end Add

/-- Settles O15: the rules and the examples by the form of each instruction, ADD A,A's bits by a byte added to
itself. -/
theorem addInstructionsExecute : Obligations.AddInstructionsExecute := by
  refine ⟨?rules, ?examples, fun s t h => ?addAA⟩
  case rules =>
    exact ⟨addRule_of_form (i := .addAB) rfl, addRule_of_form (i := .addAC) rfl, addRule_of_form (i := .addAD) rfl,
      addRule_of_form (i := .addAE) rfl, addRule_of_form (i := .addAH) rfl, addRule_of_form (i := .addAL) rfl,
      addRule_of_form (i := .addAA) rfl⟩
  case examples =>
    exact ⟨addExample_of_form (r := .b) 0x0100#16 rfl (by decide),
      addExample_of_form (r := .c) 0x0200#16 rfl (by decide), addExample_of_form (r := .d) 0x0000#16 rfl (by decide),
      addExample_of_form (r := .e) 0x1000#16 rfl (by decide), addExample_of_form (r := .h) 0x2000#16 rfl (by decide),
      addExample_of_form (r := .l) 0xFFFF#16 rfl (by decide), addExample_of_form (r := .a) 0x0300#16 rfl (by decide)⟩
  case addAA =>
    rw [exec_add rfl] at h
    cases h
    exact ⟨add8_self_res s.a, add8_self_h s.a, add8_self_c s.a⟩

end Sys2Proof.Machine

/-! PROOF. The statements of 42_jump.md: the jump mux and the five JP. -/

namespace Sys2Proof.Machine

/-! ## The jump mux (R160) -/

/-! The five conditions; only Z and C are read. -/
section CondTrue
variable (f : Flags)
@[simp] theorem condTrue_always : condTrue .always f = true := rfl
@[simp] theorem condTrue_nz : condTrue .nz f = !f.z := rfl
@[simp] theorem condTrue_z : condTrue .z f = f.z := rfl
@[simp] theorem condTrue_nc : condTrue .nc f = !f.c := rfl
@[simp] theorem condTrue_c : condTrue .c f = f.c := rfl
end CondTrue

/-- Settles O17: the conditions one by one, the mux's outputs by whether the condition holds. -/
theorem jumpMuxSelects : Obligations.JumpMuxSelects := by
  refine ⟨fun f => ⟨condTrue_always f, condTrue_nz f, condTrue_z f, condTrue_nc f, condTrue_c f⟩,
    fun cond f pc m => ?_⟩
  cases hc : condTrue cond f with
  | true => rw [jumpMux_taken pc m hc]; exact ⟨rfl, rfl, rfl, rfl⟩
  | false => rw [jumpMux_notTaken pc m hc]; exact ⟨rfl, rfl, rfl, rfl⟩

/-! ## The five jumps (R161 to R166) -/

section Jump
variable {i : Instr} {cond : Cond}

/-- A jump's meaning writes pc alone: the target, or the address after its three bytes (R161). -/
theorem exec_jp (hi : i.form = .jp cond) (s : State) :
    exec i s = .next { s with pc := if condTrue cond s.f then jumpTarget s.mem s.pc else s.pc + 3#16 } := by
  rw [exec_of_form, hi, executeForm_jp, jumpMux_next]
  rfl

/-- R161 for any instruction of the jump form, taken when the condition the form names holds. -/
theorem jumpRule_of_form (hi : i.form = .jp cond) : Statements.JumpRule (opcodeByte i) i (condTrue cond) :=
  ⟨decode_opcodeByte i, fun _ _ => rfl, exec_jp hi⟩

variable {when : Flags → Prop} (pc : Addr) (lo hi : Byte)

/-- Where the condition holds, a jump's worked example ends at the address its two bytes spell. -/
theorem jumpExample_taken (hform : i.form = .jp cond) (hc : ∀ f, when f → condTrue cond f = true) :
    Statements.JumpExample i when pc lo hi (hi ++ lo) := by
  rintro s hf rfl rfl rfl
  rw [exec_jp hform, if_pos (hc s.f hf)]
  rfl

/-- Where it does not hold, the example ends after the jump's three bytes, whatever the address bytes are. -/
theorem jumpExample_notTaken (hform : i.form = .jp cond) (hc : ∀ f, when f → condTrue cond f = false) :
    Statements.JumpExample i when pc lo hi (pc + 3#16) := by
  rintro s hf rfl - -
  rw [exec_jp hform, if_neg (by simp [hc s.f hf])]

end Jump

/-- Settles O19: the rules by the form of each instruction, the examples by whether the condition holds; the corner
cases at 0xFFFE are two more examples, with whatever address bytes memory holds. -/
theorem jumpInstructionsExecute : Obligations.JumpInstructionsExecute := by
  refine ⟨?rules, ?examples, fun s hpc => ?wrappedTarget, fun s hpc hc => ?wrappedNext⟩
  case rules =>
    exact ⟨jumpRule_of_form (i := .jpNN) rfl, jumpRule_of_form (i := .jpNzNN) rfl, jumpRule_of_form (i := .jpZNN) rfl,
      jumpRule_of_form (i := .jpNcNN) rfl, jumpRule_of_form (i := .jpCNN) rfl⟩
  case examples =>
    exact ⟨jumpExample_taken _ _ _ rfl (by simp),
      jumpExample_taken _ _ _ rfl (by simp), jumpExample_notTaken _ _ _ rfl (by simp),
      jumpExample_taken _ _ _ rfl (by simp), jumpExample_notTaken _ _ _ rfl (by simp),
      jumpExample_taken _ _ _ rfl (by simp), jumpExample_notTaken _ _ _ rfl (by simp),
      jumpExample_taken _ _ _ rfl (by simp), jumpExample_notTaken _ _ _ rfl (by simp)⟩
  case wrappedTarget =>
    exact jumpExample_taken (i := .jpNN) (when := fun _ => True) 0xFFFE#16 _ _ rfl (by simp)
      s trivial hpc rfl rfl
  case wrappedNext =>
    exact jumpExample_notTaken (i := .jpNcNN) (when := fun f => f.c = true) 0xFFFE#16 _ _ rfl (by simp)
      s hc hpc rfl rfl

end Sys2Proof.Machine

/-! PROOF. The statements of 60_exceptions.md: exactly when a step raises the decode failure. -/

namespace Sys2Proof.Machine

/-! ## The decode failure (R190, R191) -/

/-- The fetch fails on a table miss alone, with the two values that went to the decoder (R104). -/
theorem fetchAnswer_eq_failure_iff {op op' : Byte} {p b : Bool} :
    fetchAnswer op p = .failure op' b ↔ b = p ∧ op' = op ∧ decode op p = none := by
  cases hd : decode op p with
  | some i => simp [fetchAnswer_of_some hd]
  | none => simp [fetchAnswer_of_none hd, eq_comm, and_comm]

/-- A step raises the failure its fetch answers and no other: a decoded instruction always answers a next state. -/
theorem step_eq_failure_iff {s : State} {op : Byte} {b : Bool} :
    step s = .fault (.decodeFailure op b) ↔ (fetchDecode s.mem s.pc).result = .failure op b := by
  obtain ⟨i, t, hr, -, hs⟩ | ⟨op', b', hr, hs⟩ := step_cases s
  · simp [hr, hs]
  · simp [hr, hs]

/-- Where the byte at pc is not the prefix, the failure names that byte, a base-table miss. -/
theorem step_eq_failure_iff_of_base {s : State} {op : Byte} {b : Bool} (hp : Memory.read s.mem s.pc ≠ prefixByte) :
    step s = .fault (.decodeFailure op b) ↔
      b = false ∧ op = Memory.read s.mem s.pc ∧ decode (Memory.read s.mem s.pc) false = none := by
  rw [step_eq_failure_iff, fetchDecode_base hp, fetchAnswer_eq_failure_iff]

/-- Where it is the prefix, the failure names the byte after it, a secondary-table miss. -/
theorem step_eq_failure_iff_of_prefixed {s : State} {op : Byte} {b : Bool}
    (hp : Memory.read s.mem s.pc = prefixByte) :
    step s = .fault (.decodeFailure op b) ↔
      b = true ∧ op = Memory.read s.mem (s.pc + 1#16) ∧ decode (Memory.read s.mem (s.pc + 1#16)) true = none := by
  rw [step_eq_failure_iff, fetchDecode_prefixed hp, fetchAnswer_eq_failure_iff]

/-- No meaning faults: each answers a next state. -/
theorem exec_ne_fault (i : Instr) (s : State) (r : Fault) : exec i s ≠ .fault r := by
  rw [exec_of_form]
  exact nofun

/-- Settles O33: of the two cases of the failure, the byte at pc leaves one; the driver reports the failure and
keeps the state; no meaning faults. -/
theorem decodeFailureExactly : Obligations.DecodeFailureExactly := by
  refine ⟨fun s op b => ?exactly, fun _ _ _ _ hs => drive_step_of_failure hs, exec_ne_fault⟩
  by_cases hp : Memory.read s.mem s.pc = 0xCB#8
  case pos =>
    rw [step_eq_failure_iff_of_prefixed hp]
    constructor
    · rintro ⟨hb, rfl, hmiss⟩
      exact .inr ⟨hb, hp, rfl, hmiss⟩
    · rintro (⟨-, rfl, hne, -⟩ | ⟨hb, -, rfl, hmiss⟩)
      · exact absurd hp hne
      · exact ⟨hb, rfl, hmiss⟩
  case neg =>
    rw [step_eq_failure_iff_of_base hp]
    constructor
    · rintro ⟨hb, rfl, hmiss⟩
      exact .inl ⟨hb, rfl, hp, hmiss⟩
    · rintro (⟨hb, rfl, -, hmiss⟩ | ⟨-, hpre, -, -⟩)
      · exact ⟨hb, rfl, hmiss⟩
      · exact absurd hpre hp

end Sys2Proof.Machine

/-! PROOF. The statements of 70_reset_and_hazards.md: what reset loads, and the two named reset profiles. -/

namespace Sys2Proof.Machine

/-! ## Reset (R210, R211) -/

/-- The whole state after a reset, field by field: the block from the parameters, memory as it was. -/
theorem State.resetWith_eq (p : Params) (m : Memory) :
    State.resetWith p m =
      { a := p.resetRegs.a, b := p.resetRegs.b, c := p.resetRegs.c, d := p.resetRegs.d, e := p.resetRegs.e,
        h := p.resetRegs.h, l := p.resetRegs.l, f := p.resetRegs.f, pc := p.entryPc, mem := m } := rfl

@[simp] theorem drive_reset (p : Params) (s : State) : drive p s .reset = (.ok, State.resetWith p s.mem) := rfl

/-- Settles O1, from the state after a reset and the driver's equation for it. -/
theorem resetLoadsItsParameters : Obligations.ResetLoadsItsParameters :=
  ⟨State.resetWith_eq, drive_reset⟩

/-- Settles O2: the state after a reset, at each profile's registers. -/
theorem resetProfilesHoldTheirValues : Obligations.ResetProfilesHoldTheirValues :=
  ⟨fun entry mode => State.resetWith_eq { resetRegs := .zeroed, entryPc := entry, afWriteMode := mode },
    fun mode => State.resetWith_eq { resetRegs := .dmgPostBoot, entryPc := 0x0100#16, afWriteMode := mode }⟩

end Sys2Proof.Machine

/-! PROOF. The statements of 30_encoding.md: byte streams, and the encoder as their inverse. -/

namespace Sys2Proof

/-! ## Byte streams (R70, R73, R86) -/

section Stream
variable {op : Byte} {i : Instr} (rest : List Byte)

/-- An admitted opcode byte takes its operand bytes from what follows it; it is never the prefix (R80). -/
theorem decodeBytes_of_decode (h : decode op false = some i) :
    decodeBytes (op :: rest) = decodeBytes.takeOperand i rest := by
  have hp : op ≠ prefixByte := by
    rintro rfl
    simp [decode_prefixByte] at h
  simp [decodeBytes, hp, h]

theorem decodeBytes_of_miss (hp : op ≠ prefixByte) (h : decode op false = none) :
    decodeBytes (op :: rest) = .error (.noInstruction op false) := by
  simp [decodeBytes, hp, h]

/-- After the prefix every byte is a miss: the secondary table is empty (R79). -/
theorem decodeBytes_prefixed (op : Byte) :
    decodeBytes (prefixByte :: op :: rest) = .error (.noInstruction op true) := by
  simp [decodeBytes]

end Stream

/-- Splitting off the operand answers exactly the cut after as many bytes as the format has. -/
theorem takeOperand_eq_ok_iff {i : Instr} {bytes rest : List Byte} {code : Code} :
    decodeBytes.takeOperand i bytes = .ok (code, rest) ↔
      code.instr = i ∧ code.wf = true ∧ bytes = code.operand ++ rest := by
  obtain ⟨j, operand⟩ := code
  have hw : 0 < i.width := width_pos i
  unfold decodeBytes.takeOperand
  split
  case isTrue hshort =>
    refine iff_of_false nofun ?_
    rintro ⟨rfl, hwf, rfl⟩
    simp only [Code.wf, beq_iff_eq] at hwf
    simp only [List.length_append] at hshort
    omega
  case isFalse hlong =>
    simp only [Except.ok.injEq, Prod.mk.injEq, Code.mk.injEq, Code.wf, beq_iff_eq]
    constructor
    · rintro ⟨⟨rfl, rfl⟩, rfl⟩
      refine ⟨rfl, ?_, (List.take_append_drop ..).symm⟩
      rw [List.length_take]
      omega
    · rintro ⟨rfl, hwf, rfl⟩
      have hlen : j.width - 1 = operand.length := by omega
      simp [hlen]

/-- What decodes is what the encoder writes: a stream decodes to a well-formed instruction and a rest exactly when it
is that instruction's encoding followed by that rest. -/
theorem decodeBytes_eq_ok_iff {bytes rest : List Byte} {code : Code} :
    decodeBytes bytes = .ok (code, rest) ↔ code.wf = true ∧ bytes = encode code ++ rest := by
  cases bytes with
  | nil => exact iff_of_false nofun fun h => by simp [encode] at h
  | cons op bytes =>
    have hcons : op :: bytes = encode code ++ rest ↔
        decode op false = some code.instr ∧ bytes = code.operand ++ rest := by
      simp [encode, decode_eq_some_iff]
    rw [hcons]
    cases hd : decode op false with
    | some i =>
      rw [decodeBytes_of_decode bytes hd, takeOperand_eq_ok_iff, Option.some.injEq, eq_comm (a := i)]
      exact and_left_comm
    | none =>
      refine iff_of_false ?_ fun h => by simp at h
      by_cases hp : op = prefixByte
      case neg => simp [decodeBytes_of_miss bytes hp hd]
      case pos =>
        subst hp
        cases bytes with
        | nil => simp [decodeBytes]
        | cons op' after => simp [decodeBytes_prefixed]

/-- Settles O28: the encoding of a well-formed instruction is a stream that decodes to it. -/
theorem decodeOfEncodeIsIdentity : Obligations.DecodeOfEncodeIsIdentity :=
  fun _ _ hwf => decodeBytes_eq_ok_iff.2 ⟨hwf, rfl⟩

/-- Settles O29, the same equivalence read the other way. -/
theorem decodedBytesAreTheEncoding : Obligations.DecodedBytesAreTheEncoding :=
  fun _ _ _ h => decodeBytes_eq_ok_iff.1 h

/-! ## Lengths and counts (R70, R83, R85, R86) -/

/-- The top five bits of an instruction's opcode byte tell its form, and so its length (R70). -/
theorem width_eq_of_opcodeByte (i : Instr) :
    i.width = if (opcodeByte i).extractLsb' 3 5 = 0b10000#5 then 1 else 3 := by
  cases i <;> rfl

/-- Settles O26: the length by the instruction's opcode byte, the rejections by the table that misses. -/
theorem firstByteTellsLength : Obligations.FirstByteTellsLength := by
  refine ⟨fun op i h => ?_, fun op rest => decodeBytes_prefixed rest op, fun _ rest => decodeBytes_of_miss rest⟩
  rw [decode_eq_some_iff.1 h]
  exact width_eq_of_opcodeByte i

/-- Settles O25: the two translations undo each other. -/
theorem instructionsAreTheTwoForms : Obligations.InstructionsAreTheTwoForms :=
  ⟨instrOfForm_form, form_instrOfForm⟩

/-- Settles O27: each word is its instruction's encoding, with nothing after it. -/
theorem writtenOutWordsDecode : Obligations.WrittenOutWordsDecode :=
  ⟨decodeBytes_eq_ok_iff.2 ⟨rfl, rfl⟩, decodeBytes_eq_ok_iff.2 ⟨rfl, rfl⟩, decodeBytes_eq_ok_iff.2 ⟨rfl, rfl⟩,
    decodeBytes_eq_ok_iff.2 ⟨rfl, rfl⟩, decodeBytes_eq_ok_iff.2 ⟨rfl, rfl⟩, decodeBytes_eq_ok_iff.2 ⟨rfl, rfl⟩⟩

/-- The twelve instructions. -/
def instructions : List Instr :=
  [.addAB, .addAC, .addAD, .addAE, .addAH, .addAL, .addAA, .jpNN, .jpNzNN, .jpZNN, .jpNcNN, .jpCNN]

theorem mem_instructions (i : Instr) : i ∈ instructions := by cases i <;> decide

/-- The byte values the base table admits are the twelve instructions' opcode bytes, each once. -/
theorem admitted_perm_opcodeBytes :
    ((List.range 256).filter fun n => (decode (BitVec.ofNat 8 n) false).isSome).Perm
      (instructions.map fun i => (opcodeByte i).toNat) := by
  refine (List.perm_ext_iff_of_nodup (List.nodup_range.filter _) (by decide)).2 fun n => ?_
  simp only [List.mem_filter, List.mem_range, List.mem_map, Option.isSome_iff_exists, decode_eq_some_iff]
  constructor
  · rintro ⟨hn, i, hi⟩
    exact ⟨i, mem_instructions i, by rw [← hi, BitVec.toNat_ofNat, Nat.mod_eq_of_lt hn]⟩
  · rintro ⟨i, -, rfl⟩
    exact ⟨(opcodeByte i).isLt, i, BitVec.ofNat_toNat ..⟩

/-- Settles O23: of the 256 bytes the base table admits twelve, the secondary table none. -/
theorem tableMissCounts : Obligations.TableMissCounts := by
  refine ⟨?base, ?secondary⟩
  case base =>
    have hadmitted := admitted_perm_opcodeBytes.length_eq
    have hsplit := List.length_eq_length_filter_add (l := List.range 256)
      fun n => (decode (BitVec.ofNat 8 n) false).isSome
    have htwelve : (instructions.map fun i => (opcodeByte i).toNat).length = 12 := rfl
    simp only [Option.not_isSome, List.length_range, hadmitted, htwelve] at hsplit
    omega
  case secondary => simp

end Sys2Proof

/-! PROOF. The statements of 20_memory.md: the canonical memory, what a change of memory leaves to read, and what a
step's outcome depends on. -/

namespace Sys2Proof.Machine

/-! ## Read after write (R50, R55) -/

theorem Memory.wfFrom_cons {lo k : Nat} {w : Byte} {rest : Memory} :
    Memory.wfFrom lo ((k, w) :: rest) = true ↔
      lo ≤ k ∧ k < 65536 ∧ w ≠ Config.unlistedByte ∧ Memory.wfFrom (k + 1) rest = true := by
  simp [Memory.wfFrom, and_assoc]

theorem Memory.lookup_insert {lo : Nat} {m : Memory} (h : Memory.wfFrom lo m = true) (n : Nat) (v : Byte) (j : Nat) :
    Memory.lookup (Memory.insert m n v) j = if n = j then v else Memory.lookup m j := by
  induction m generalizing lo with
  | nil => exact Memory.lookup_consEntry (m := []) rfl j
  | cons kw rest ih =>
    obtain ⟨k, w⟩ := kw
    obtain ⟨-, hk, hw, hrest⟩ := Memory.wfFrom_cons.1 h
    rw [Memory.insert]
    split
    case isTrue hlt => exact Memory.lookup_consEntry (Memory.wfFrom_cons.2 ⟨hlt, hk, hw, hrest⟩) j
    case isFalse hge =>
      split
      case isTrue heq =>
        subst heq
        rw [Memory.lookup_consEntry hrest, Memory.lookup]
        split <;> rfl
      case isFalse hne =>
        rw [Memory.lookup, Memory.lookup, ih hrest]
        by_cases hkj : k = j
        · rw [if_pos hkj, if_pos hkj, if_neg (by omega)]
        · rw [if_neg hkj, if_neg hkj]

/-- Over a canonical memory the changed address reads the new byte, and no other address is touched. -/
theorem Memory.read_write {m : Memory} (h : Memory.wf m = true) (addr : Addr) (v : Byte) (other : Addr) :
    Memory.read (Memory.write m addr v) other = if addr = other then v else Memory.read m other := by
  simp only [← BitVec.toNat_inj (x := addr)]
  exact Memory.lookup_insert h addr.toNat v other.toNat

theorem Memory.read_write_self {m : Memory} (h : Memory.wf m = true) (addr : Addr) (v : Byte) :
    Memory.read (Memory.write m addr v) addr = v := by
  rw [Memory.read_write h, if_pos rfl]

/-- Settles O44: the two branches of a read after a write. -/
theorem memoryReadAfterWrite : Obligations.MemoryReadAfterWrite := by
  refine fun m addr v h => ⟨?_, fun other hne => ?_⟩
  · exact Memory.read_write_self h addr v
  · rw [Memory.read_write h, if_neg hne.symm]

/-- After a list of changes each address reads the last byte given for it, or what it read before (R66). -/
theorem Memory.read_writeCells {m : Memory} (h : Memory.wf m = true) (cells : List (Addr × Byte)) (addr : Addr) :
    Memory.read (Memory.writeCells m cells) addr =
      match cells.reverse.find? (fun cell => cell.1 == addr) with
      | some cell => cell.2
      | none => Memory.read m addr := by
  induction cells generalizing m with
  | nil => rfl
  | cons cell rest ih =>
    rw [Memory.writeCells, ih (Memory.wf_write cell.1 cell.2 h), List.reverse_cons, List.find?_append]
    cases hrest : rest.reverse.find? (fun c => c.1 == addr) with
    | some last => rfl
    | none =>
      rw [Memory.read_write h]
      by_cases hc : cell.1 = addr <;> simp [hc]

/-! ## Every total function is one canonical memory (R50) -/

theorem Memory.lookup_head (k : Nat) (w : Byte) (rest : Memory) : Memory.lookup ((k, w) :: rest) k = w :=
  if_pos rfl

theorem Memory.lookup_tail {k n : Nat} (w : Byte) (rest : Memory) (h : k < n) :
    Memory.lookup ((k, w) :: rest) n = Memory.lookup rest n :=
  if_neg (by omega)

/-- The first address of a list is unlisted in a canonical list that begins above it. -/
theorem Memory.lookup_head_ne {k : Nat} {w : Byte} {rest m : Memory} (hw : w ≠ Config.unlistedByte)
    (h : Memory.wfFrom (k + 1) m = true) : Memory.lookup ((k, w) :: rest) k ≠ Memory.lookup m k := by
  rw [Memory.lookup_head, Memory.lookup_below h (by omega)]
  exact hw

/-- Canonical lists that read alike are equal: their first addresses are, and so on down the lists. -/
theorem Memory.eq_of_lookup_eq {lo : Nat} {m m' : Memory} (h : Memory.wfFrom lo m = true)
    (h' : Memory.wfFrom lo m' = true) (hread : ∀ n, lo ≤ n → n < 65536 → Memory.lookup m n = Memory.lookup m' n) :
    m = m' := by
  induction m generalizing lo m' with
  | nil =>
    cases m' with
    | nil => rfl
    | cons kw' rest' =>
      obtain ⟨hlo', hk', hw', -⟩ := Memory.wfFrom_cons.1 h'
      exact absurd (hread _ hlo' hk').symm (Memory.lookup_head_ne hw' rfl)
  | cons kw rest ih =>
    obtain ⟨k, w⟩ := kw
    obtain ⟨hlo, hk, hw, hrest⟩ := Memory.wfFrom_cons.1 h
    cases m' with
    | nil => exact absurd (hread k hlo hk) (Memory.lookup_head_ne hw rfl)
    | cons kw' rest' =>
      obtain ⟨k', w'⟩ := kw'
      obtain ⟨hlo', hk', hw', hrest'⟩ := Memory.wfFrom_cons.1 h'
      obtain hlt | rfl | hgt := Nat.lt_trichotomy k k'
      · exact absurd (hread k hlo hk) (Memory.lookup_head_ne hw (Memory.wfFrom_cons.2 ⟨hlt, hk', hw', hrest'⟩))
      · have hww : w = w' := by simpa only [Memory.lookup_head] using hread k hlo hk
        have htails : rest = rest' := ih hrest hrest' fun n hn hn' => by
          simpa only [Memory.lookup_tail _ _ hn] using hread n (by omega) hn'
        rw [hww, htails]
      · exact absurd (hread k' hlo' hk').symm (Memory.lookup_head_ne hw' (Memory.wfFrom_cons.2 ⟨hgt, hk, hw, hrest⟩))

theorem Memory.eq_of_read_eq {m m' : Memory} (h : Memory.wf m = true) (h' : Memory.wf m' = true)
    (hread : ∀ addr, Memory.read m addr = Memory.read m' addr) : m = m' := by
  refine Memory.eq_of_lookup_eq h h' fun n _ hn => ?_
  have hn' := hread (BitVec.ofNat 16 n)
  rwa [Memory.read, Memory.read, BitVec.toNat_ofNat, Nat.mod_eq_of_lt hn] at hn'

/-- A total function as the list of all its address and byte pairs. -/
def graphCells (answers : Addr → Byte) : List (Addr × Byte) :=
  (List.range 65536).map fun n => (BitVec.ofNat 16 n, answers (BitVec.ofNat 16 n))

theorem mem_graphCells {answers : Addr → Byte} {cell : Addr × Byte} :
    cell ∈ graphCells answers ↔ cell.2 = answers cell.1 := by
  obtain ⟨addr, v⟩ := cell
  simp only [graphCells, List.mem_map, List.mem_range, Prod.mk.injEq]
  constructor
  · rintro ⟨n, -, rfl, rfl⟩
    rfl
  · rintro rfl
    exact ⟨addr.toNat, addr.isLt, by simp⟩

/-- Changing every byte to a function's answers makes a memory that reads as the function. -/
theorem Memory.read_writeCells_graphCells (answers : Addr → Byte) (addr : Addr) :
    Memory.read (Memory.writeCells [] (graphCells answers)) addr = answers addr := by
  rw [Memory.read_writeCells rfl]
  cases hfind : (graphCells answers).reverse.find? (fun cell => cell.1 == addr) with
  | some cell =>
    have haddr : cell.1 = addr := by simpa using List.find?_some hfind
    have hcell : cell.2 = answers cell.1 := mem_graphCells.1 (List.mem_reverse.1 (List.mem_of_find?_eq_some hfind))
    exact haddr ▸ hcell
  | none =>
    have hmem : (addr, answers addr) ∈ (graphCells answers).reverse := List.mem_reverse.2 (mem_graphCells.2 rfl)
    simpa using List.find?_eq_none.1 hfind _ hmem

/-- Settles O45: the memory with every byte changed to the function's answer, the only one by how it reads. -/
theorem memoryHoldsEveryTotalFunction : Obligations.MemoryHoldsEveryTotalFunction := by
  intro answers
  have hwf : Memory.wf (Memory.writeCells [] (graphCells answers)) = true := Memory.wf_writeCells _ rfl
  have hread := Memory.read_writeCells_graphCells answers
  exact ⟨_, hwf, hread, fun m' hwf' hread' =>
    Memory.eq_of_read_eq hwf' hwf fun addr => (hread' addr).trans (hread addr).symm⟩

/-! ## What a step depends on (R56) -/

/-- A fetch over a memory that answers alike at the addresses it reads is the same fetch. -/
theorem fetchDecode_congr {m m' : Memory} {pc : Addr}
    (h : ∀ addr ∈ (fetchDecode m pc).reads, Memory.read m' addr = Memory.read m addr) :
    fetchDecode m' pc = fetchDecode m pc := by
  by_cases hp : Memory.read m pc = prefixByte
  · simp only [fetchDecode_prefixed hp, List.forall_mem_cons] at h
    obtain ⟨hpc, hnext, -⟩ := h
    rw [fetchDecode_prefixed hp, fetchDecode_prefixed (hpc.trans hp), hnext]
  · simp only [fetchDecode_base hp, List.forall_mem_singleton] at h
    rw [fetchDecode_base hp, fetchDecode_base (h ▸ hp), h]

/-- So is a jump's mux; where the jump is not taken it reads nothing. -/
theorem jumpMux_congr {cond : Cond} {f : Flags} {pc : Addr} {m m' : Memory}
    (h : ∀ addr ∈ (jumpMux cond f pc m).reads, Memory.read m' addr = Memory.read m addr) :
    jumpMux cond f pc m' = jumpMux cond f pc m := by
  cases hc : condTrue cond f with
  | true =>
    simp only [jumpMux_taken pc m hc, List.forall_mem_cons] at h
    obtain ⟨hlo, hhi, -⟩ := h
    rw [jumpMux_taken pc m hc, jumpMux_taken pc m' hc, jumpTarget, jumpTarget, hlo, hhi]
  | false => rw [jumpMux_notTaken pc m hc, jumpMux_notTaken pc m' hc]

theorem mem_stepReads_of_fetch {s : State} {addr : Addr} (h : addr ∈ (fetchDecode s.mem s.pc).reads) :
    addr ∈ stepReads s :=
  List.mem_append_left _ h

theorem mem_stepReads_of_mux {s : State} {i : Instr} {cond : Cond} {addr : Addr}
    (hr : (fetchDecode s.mem s.pc).result = .decoded i) (hf : i.form = .jp cond)
    (h : addr ∈ (jumpMux cond s.f s.pc s.mem).reads) : addr ∈ stepReads s := by
  simp [stepReads, hr, hf, h]

section Reads
variable {s : State} {m : Memory} (h : ∀ addr ∈ stepReads s, Memory.read m addr = Memory.read s.mem addr)
include h

theorem fetchDecode_of_stepReads : fetchDecode m s.pc = fetchDecode s.mem s.pc :=
  fetchDecode_congr fun addr haddr => h addr (mem_stepReads_of_fetch haddr)

theorem executeForm_of_stepReads {i : Instr} (hr : (fetchDecode s.mem s.pc).result = .decoded i) :
    executeForm i.form s.toBlock m = executeForm i.form s.toBlock s.mem := by
  cases hf : i.form with
  | add r => rfl
  | jp cond =>
    rw [executeForm_jp, executeForm_jp, jumpMux_congr fun addr haddr => h addr (mem_stepReads_of_mux hr hf haddr)]

end Reads

/-- Settles O43: over the other memory the step fetches the same, and then runs the same meaning or fails alike. -/
theorem stepDependsOnlyOnBytesItReads : Obligations.StepDependsOnlyOnBytesItReads := by
  intro s m h
  have hfetch : (fetchDecode m s.pc).result = (fetchDecode s.mem s.pc).result := by
    rw [fetchDecode_of_stepReads h]
  obtain ⟨i, t, hr, hexec, hs⟩ | ⟨op, b, hr, hs⟩ := step_cases s
  case inl =>
    have hunder : stepUnder m s = exec i { s with mem := m } := step_of_decoded (hfetch.trans hr)
    rw [exec_of_form] at hexec
    cases hexec
    rw [hs, hunder, exec_of_form, executeForm_of_stepReads h hr]
    rfl
  case inr =>
    have hunder : stepUnder m s = .fault (.decodeFailure op b) := step_of_failure (hfetch.trans hr)
    rw [hs, hunder]

/-! ## Sessions keep the canonical form (R52, R55) -/

theorem State.wf_of_step {s t : State} (hwf : s.wf = true) (h : step s = .next t) : t.wf = true := by
  rw [State.wf, mem_of_step h]
  exact hwf

/-- Each of the host's actions keeps the form: reset, a step and a register write leave memory as it was. -/
theorem State.wf_drive (p : Params) {s : State} (act : DriverAction) (h : s.wf = true) :
    (drive p s act).2.wf = true := by
  cases act with
  | reset => exact State.wf_resetWith p h
  | step =>
    obtain ⟨t, hs⟩ | ⟨op, b, hs⟩ := step_next_or_failure s
    · rw [drive_step_of_next hs]
      exact State.wf_of_step h hs
    · rw [drive_step_of_failure hs]
      exact h
  | hostWrite reg pair =>
    rw [State.wf, (drive_hostWrite_pc_mem p s reg pair).2]
    exact h
  | changeMemory cells => exact Memory.wf_writeCells cells h

theorem State.wf_driveAll (p : Params) (acts : List DriverAction) {s : State} (h : s.wf = true) :
    (driveAll p s acts).2.wf = true := by
  induction acts generalizing s with
  | nil => exact h
  | cons act rest ih => exact ih (State.wf_drive p act h)

/-- Settles O46, the invariant by one step and by induction over the session. -/
theorem sessionsKeepCanonicalMemory : Obligations.SessionsKeepCanonicalMemory :=
  ⟨fun _ _ => State.wf_of_step, fun p acts _ => State.wf_driveAll p acts⟩

/-! ## A change of memory is seen by the next fetch (R66) -/

section NextFetch
variable {s : State}

/-- The opcode byte alone decides what a step runs (R102, R107). -/
theorem step_of_opcode {i : Instr} (h : decode (Memory.read s.mem s.pc) false = some i) : step s = exec i s := by
  have hp : Memory.read s.mem s.pc ≠ prefixByte := by
    rw [decode_eq_some_iff.1 h]
    exact opcodeByte_ne_prefix i
  apply step_of_decoded
  rw [fetchDecode_base hp, fetchAnswer_of_some h]

theorem step_of_miss (hp : Memory.read s.mem s.pc ≠ prefixByte) (h : decode (Memory.read s.mem s.pc) false = none) :
    step s = .fault (.decodeFailure (Memory.read s.mem s.pc) false) :=
  (step_eq_failure_iff_of_base hp).2 ⟨rfl, rfl, h⟩

theorem step_of_prefix (hp : Memory.read s.mem s.pc = prefixByte) :
    step s = .fault (.decodeFailure (Memory.read s.mem (s.pc + 1#16)) true) :=
  (step_eq_failure_iff_of_prefixed hp).2 ⟨rfl, rfl, decode_secondary _⟩

variable (s) in
/-- The byte at pc, admitted, a miss or the prefix, says what the step does. -/
theorem step_by_byte :
    (∀ i, decode (Memory.read s.mem s.pc) false = some i → step s = exec i s) ∧
    (Memory.read s.mem s.pc ≠ prefixByte → decode (Memory.read s.mem s.pc) false = none →
      step s = .fault (.decodeFailure (Memory.read s.mem s.pc) false)) ∧
    (Memory.read s.mem s.pc = prefixByte →
      step s = .fault (.decodeFailure (Memory.read s.mem (s.pc + 1#16)) true)) :=
  ⟨fun _ => step_of_opcode, step_of_miss, step_of_prefix⟩

end NextFetch

/-- Settles O47: what the changed memory reads, and the step by the byte now at pc. -/
theorem nextFetchSeesMemoryChange : Obligations.NextFetchSeesMemoryChange := by
  refine ⟨fun p s cells h => ?cells, fun p s v h => ?oneByte⟩
  case cells =>
    exact ⟨_, rfl, rfl, Memory.read_writeCells h cells, step_by_byte _⟩
  case oneByte =>
    have hv : Memory.read (Memory.write s.mem s.pc v) s.pc = v := Memory.read_write_self h s.pc v
    refine ⟨{ s with mem := Memory.write s.mem s.pc v }, rfl, fun _ => rfl, rfl, rfl, ?_⟩
    generalize Memory.write s.mem s.pc v = m at hv ⊢
    subst hv
    exact step_by_byte { s with mem := m }

end Sys2Proof.Machine

/-! PROOF. The statements of 10_state.md: the laws of flag packing and of the pair ports, the register file's ports,
and which registers a step reads and writes. -/

namespace Sys2Proof.Machine

/-! ## Flag packing (R26) -/

theorem byteToFlags_flagsToByte (f : Flags) : byteToFlags (flagsToByte f) = f := by
  obtain ⟨z, n, h, c⟩ := f
  revert z n h c
  decide

theorem flagsToByte_byteToFlags : ∀ v : Byte, flagsToByte (byteToFlags v) = v &&& 0xF0#8 := by
  decide

/-- Settles O7: packing and unpacking are inverse up to the low nibble, which unpacking does not see. -/
theorem flagPackingLaws : Obligations.FlagPackingLaws :=
  ⟨byteToFlags_flagsToByte, flagsToByte_byteToFlags, fun x => byteToFlags_flagsToByte (byteToFlags x)⟩

/-! ## The pair ports (R33) -/

/-- A 16-bit value is its two bytes, the high one first (R28). -/
theorem highByte_append_lowByte (v : Addr) : highByte v ++ lowByte v = v := by
  calc highByte v ++ lowByte v
      = v.extractLsb' 0 16 := BitVec.extractLsb'_append_extractLsb'_eq_extractLsb' (start₁ := 0) rfl
    _ = v := BitVec.extractLsb'_eq_self

section PairLaws
variable (mode : AfWriteMode) (s : Block) (v : Addr) {p q : Pair}

theorem Block.getPair_setPair_same (hp : p ≠ .af) : (s.setPair mode p v).getPair p = v := by
  cases p with
  | af => exact absurd rfl hp
  | bc => exact highByte_append_lowByte v
  | de => exact highByte_append_lowByte v
  | hl => exact highByte_append_lowByte v

/-- Different pairs share no register, and F is part of af alone (R28, R31). -/
theorem Block.getPair_setPair_other (hp : p ≠ .af) (hq : q ≠ p) :
    (s.setPair mode p v).getPair q = s.getPair q := by
  cases p with
  | af => exact absurd rfl hp
  | bc => cases q with
    | bc => exact absurd rfl hq
    | _ => rfl
  | de => cases q with
    | de => exact absurd rfl hq
    | _ => rfl
  | hl => cases q with
    | hl => exact absurd rfl hq
    | _ => rfl

theorem Block.setPair_f_eq_and_a_eq (hp : p ≠ .af) :
    (s.setPair mode p v).f = s.f ∧ (s.setPair mode p v).a = s.a := by
  cases p with
  | af => exact absurd rfl hp
  | _ => exact ⟨rfl, rfl⟩

/-- Under `corrected` af reads back with the low nibble cleared, which F does not store (R26, R32). -/
theorem Block.getPair_setPair_af_corrected : (s.setPair .corrected .af v).getPair .af = v &&& 0xFFF0#16 := by
  calc (s.setPair .corrected .af v).getPair .af
      = highByte v ++ flagsToByte (byteToFlags (lowByte v)) := rfl
    _ = (highByte v &&& 0xFF#8) ++ (lowByte v &&& 0xF0#8) := by
      rw [flagsToByte_byteToFlags, show highByte v &&& 0xFF#8 = highByte v from BitVec.and_allOnes]
    _ = (highByte v ++ lowByte v) &&& (0xFF#8 ++ 0xF0#8) := BitVec.and_append.symm
    _ = v &&& 0xFFF0#16 := by rw [highByte_append_lowByte]; rfl

theorem Block.readReg_setPair_af_corrected {r : Reg8} (hr : r ≠ .a) :
    (s.setPair .corrected .af v).readReg r = s.readReg r := by
  cases r with
  | a => exact absurd rfl hr
  | _ => rfl

end PairLaws

/-- Settles O10, one law after the other; what `source_compat` leaves is the update it makes. -/
theorem pairPortLaws : Obligations.PairPortLaws := by
  refine ⟨fun mode s v p hp => ?plain, fun s v => ?corrected, fun s v => ⟨rfl, rfl, rfl, rfl⟩⟩
  case plain =>
    obtain ⟨hf, ha⟩ := s.setPair_f_eq_and_a_eq mode v hp
    exact ⟨s.getPair_setPair_same mode v hp, hf, ha, fun q hq => s.getPair_setPair_other mode v hp hq⟩
  case corrected =>
    exact ⟨s.getPair_setPair_af_corrected v, fun r hr => s.readReg_setPair_af_corrected v hr⟩

/-! ## The register file's ports (R34, R35) -/

section WriteReg
variable (s : Block) (r : Reg8) (v : Byte)

theorem Block.readReg_writeReg_same : (s.writeReg r v).readReg r = v := by
  cases r <;> rfl

theorem Block.readReg_writeReg_other {q : Reg8} (hq : q ≠ r) : (s.writeReg r v).readReg q = s.readReg q := by
  cases q <;> simp [Block.readReg, hq.symm]

end WriteReg

/-- Which requests are refused: core and host ports together, or both host ports (R35). -/
theorem WritePorts.conflict_iff (w : WritePorts) :
    w.conflict = true ↔
      (w.regWrite ≠ none ∨ w.pairWrite ≠ none) ∧ (w.aWrite ≠ none ∨ w.flagsWrite ≠ none) ∨
        w.regWrite ≠ none ∧ w.pairWrite ≠ none := by
  simp only [WritePorts.conflict, Bool.or_eq_true, Bool.and_eq_true, Option.isSome_iff_ne_none,
    and_comm (a := w.aWrite ≠ none ∨ w.flagsWrite ≠ none)]

section PortWrite
variable (mode : AfWriteMode) {w : WritePorts} (s : Block)

theorem portWrite_of_conflict (h : w.conflict = true) : portWrite mode w s = .refused .portConflict :=
  if_pos h

theorem portWrite_of_not_conflict (h : ¬ w.conflict = true) : portWrite mode w s = .next (applyPorts mode w s) :=
  if_neg h

end PortWrite

/-- Settles O11: the read ports, each write port alone, and the driver's host write by what the request comes to. -/
theorem registerFilePorts : Obligations.RegisterFilePorts := by
  refine ⟨fun _ _ _ => rfl, fun mode s => ⟨rfl, fun _ => rfl, fun _ => rfl, fun _ _ => rfl, fun r v => ?regWrite⟩,
    fun p s reg pair => ⟨?mem, fun block h => drive_hostWrite_of_next h, fun h => ?refused⟩⟩
  case regWrite =>
    exact ⟨s.writeReg r v, rfl, s.readReg_writeReg_same r v, fun q => s.readReg_writeReg_other r v,
      s.writeReg_f r v, s.writeReg_pc r v⟩
  case mem => exact (drive_hostWrite_pc_mem p s reg pair).2
  case refused =>
    exact drive_hostWrite_of_refused
      (portWrite_of_conflict p.afWriteMode s.toBlock ((WritePorts.conflict_iff _).2 (.inr h)))

/-- Settles O12: a meaning's registers are one request on the core's ports, by its form; a request is refused exactly
where its ports conflict. -/
theorem writePortsOfAStep : Obligations.WritePortsOfAStep := by
  refine ⟨fun mode s t i hr hs => ?step, fun mode w s => ⟨fun h => ?refused, fun h => ?taken⟩⟩
  case step =>
    rw [step_of_decoded hr] at hs
    obtain ⟨r, hf, rfl⟩ | ⟨cond, hf, rfl⟩ := exec_cases hs
    · rw [hf]
      exact ⟨_, _, rfl⟩
    · rw [hf]
      rfl
  case refused => exact portWrite_of_conflict mode s (w.conflict_iff.2 h)
  case taken =>
    refine ⟨_, portWrite_of_not_conflict mode s ?_⟩
    rw [w.conflict_iff]
    tauto

/-! ## What a step reads and writes of the registers (R22, R27) -/

/-- Settles O38: a jump writes pc alone; an add writes a, F and pc, with N at 0. -/
theorem onlyAddWritesRegisters : Obligations.OnlyAddWritesRegisters := by
  intro s t h
  obtain ⟨i, hr, hexec⟩ := step_next h
  obtain ⟨r, hf, rfl⟩ | ⟨cond, hf, rfl⟩ := exec_cases hexec
  · refine ⟨rfl, rfl, rfl, rfl, rfl, rfl, fun _ => ⟨r, ?_, rfl⟩⟩
    rw [← hf, instrOfForm_form, hr]
  · exact ⟨rfl, rfl, rfl, rfl, rfl, rfl, fun hne => by simp at hne⟩

/-- A jump's next pc is decided by pc, memory and whether its condition holds. -/
theorem pc_eq_of_exec_jp {i : Instr} {cond : Cond} {s s' t t' : State} (hi : i.form = .jp cond)
    (hpc : s.pc = s'.pc) (hmem : s.mem = s'.mem) (hcond : condTrue cond s.f = condTrue cond s'.f)
    (h : exec i s = .next t) (h' : exec i s' = .next t') : t.pc = t'.pc := by
  rw [exec_jp hi] at h h'
  cases h
  cases h'
  rw [hpc, hmem, hcond]

/-- Settles O39: an add's result is the ALU's on a and its source; a jump's condition reads Z, C or nothing. -/
theorem instructionsReadOnlyTheirOperands : Obligations.InstructionsReadOnlyTheirOperands := by
  refine ⟨fun r s s' t t' ha hsrc h h' => ?add, fun i s s' t t' hpc hmem h h' => ⟨?always, ?zero, ?carry⟩⟩
  case add =>
    rw [exec_add (form_instrOfForm _)] at h h'
    cases h
    cases h'
    rw [ha, hsrc]
    exact ⟨rfl, rfl⟩
  case always =>
    rintro rfl
    exact pc_eq_of_exec_jp rfl hpc hmem rfl h h'
  case zero =>
    rintro (rfl | rfl) hz
    · exact pc_eq_of_exec_jp rfl hpc hmem (by simp only [condTrue_nz, hz]) h h'
    · exact pc_eq_of_exec_jp rfl hpc hmem (by simp only [condTrue_z, hz]) h h'
  case carry =>
    rintro (rfl | rfl) hc
    · exact pc_eq_of_exec_jp rfl hpc hmem (by simp only [condTrue_nc, hc]) h h'
    · exact pc_eq_of_exec_jp rfl hpc hmem (by simp only [condTrue_c, hc]) h h'

end Sys2Proof.Machine

/-! PROOF. The statements of 40_fetch_decode_step.md: the step on the block alone, the step by the bytes at pc, the
fixed point of a self-jump. -/

namespace Sys2Proof.Machine

/-! ## The step (R107, R201) -/

/-- Settles O51, one case per answer of the fetch. -/
theorem stepIsTheBlockStep : Obligations.StepIsTheBlockStep := by
  intro block m
  cases hr : (fetchDecode m block.pc).result with
  | decoded i =>
    rw [blockStep_of_decoded hr, step_of_decoded (s := { toBlock := block, mem := m }) hr, exec_of_form]
    rfl
  | failure op b => rw [blockStep_of_failure hr, step_of_failure (s := { toBlock := block, mem := m }) hr]

/-- Settles O31: bytes that decode are an encoding, so the first of them is the instruction's opcode byte. -/
theorem stepRunsTheDecodedInstruction : Obligations.StepRunsTheDecodedInstruction := by
  refine ⟨fun s code rest h => step_of_opcode ?_, fun _ _ => step_of_opcode⟩
  obtain ⟨-, hbytes⟩ := decodeBytes_eq_ok_iff.1 h
  obtain ⟨hop, -⟩ := List.cons.inj hbytes
  rw [hop]
  exact decode_opcodeByte code.instr

/-- Settles O40: every arm of the dispatch answers a next state. -/
theorem everyInstructionExecutes : Obligations.EveryInstructionExecutes :=
  fun i s => ⟨_, exec_of_form i s⟩

/-! ## The self-jump (R115) -/

theorem core_run_of_selfJump (n : Nat) {s : State} (h : selfJump s = true) : Sys2Proof.core.run n s = .next s := by
  induction n with
  | zero => rfl
  | succ n ih =>
    rw [core_run_succ, step_of_selfJump h]
    exact ih

/-- Settles O49: one step answers the state it began in, so every further step does. -/
theorem selfJumpIsAFixedPoint : Obligations.SelfJumpIsAFixedPoint :=
  fun _ h => ⟨step_of_selfJump h, fun n => core_run_of_selfJump n h⟩

end Sys2Proof.Machine

/-! PROOF. The statements of 41_alu_add.md and 42_jump.md: the integer laws of the add, the jump target as a number,
the frames of the two forms. -/

namespace Sys2Proof.Machine

/-! ## The integer laws of the add (R139) -/

section AluLaws
variable (x y : Byte)

theorem add8_comm : add8 x y = add8 y x := by
  simp only [add8_eq, Nat.add_comm]

/-- Nothing of the sum is lost: what the result drops is the carry. -/
theorem add8_exact : x.toNat + y.toNat = (add8 x y).res.toNat + 256 * (add8 x y).flags.c.toNat := by
  have hx : x.toNat < 256 := x.isLt
  have hy : y.toNat < 256 := y.isLt
  simp only [add8_eq, BitVec.toNat_ofNat]
  by_cases hc : x.toNat + y.toNat > 255
  · simp only [hc, decide_true, Bool.toNat_true]
    omega
  · simp only [hc, decide_false, Bool.toNat_false]
    omega

theorem add8_res : (add8 x y).res = x + y := by
  rw [add8_eq]
  exact BitVec.eq_of_toNat_eq (by simp)

/-- H is the carry from bit 3 into bit 4 (R130). -/
theorem add8_h_eq_carry : (add8 x y).flags.h = BitVec.carry 4 x y false := by
  rw [add8_eq, BitVec.carry, decide_eq_decide]
  simp only [Bool.toNat_false]
  omega

theorem add8_h_eq_xor : (add8 x y).flags.h = (x ^^^ y ^^^ (add8 x y).res).getLsbD 4 := by
  rw [add8_h_eq_carry, add8_res, BitVec.getLsbD_xor, BitVec.getLsbD_xor, BitVec.getLsbD_add (by decide)]
  cases x.getLsbD 4 <;> cases y.getLsbD 4 <;> simp

/-- H is bit 4 of the sum of the low nibbles, taken in five bits. -/
theorem add8_h_eq_nibbleSum : (add8 x y).flags.h =
    (BitVec.setWidth 5 (x.extractLsb' 0 4) + BitVec.setWidth 5 (y.extractLsb' 0 4)).getLsbD 4 := by
  rw [add8_eq, BitVec.getLsbD, Nat.testBit_eq_decide_div_mod_eq, decide_eq_decide]
  simp only [BitVec.toNat_add, BitVec.toNat_setWidth, BitVec.extractLsb'_toNat, Nat.shiftRight_zero, Nat.reducePow,
    Nat.add_mod_mod, Nat.mod_add_mod]
  omega

theorem add8_zero :
    add8 x 0#8 = { res := x, flags := { z := decide (x = 0#8), n := false, h := false, c := false } } := by
  have hx : x.toNat < 256 := x.isLt
  have hlow : ¬ x.toNat % 16 > 15 := by omega
  have hcarry : ¬ x.toNat > 255 := by omega
  simp only [add8_eq, BitVec.toNat_ofNat, Nat.zero_mod, Nat.add_zero]
  simp [hlow, hcarry, Nat.mod_eq_of_lt hx, ← BitVec.toNat_inj]

end AluLaws

/-- Settles O14, its five laws. -/
theorem aluIntegerLaws : Obligations.AluIntegerLaws :=
  fun x y => ⟨add8_exact x y, add8_h_eq_xor x y, add8_h_eq_nibbleSum x y, add8_comm x y, add8_zero x⟩

/-! ## The jump target (R57, R76) -/

theorem toNat_jumpTarget (m : Memory) (pc : Addr) :
    (jumpTarget m pc).toNat = 256 * (Memory.read m (pc + 2#16)).toNat + (Memory.read m (pc + 1#16)).toNat := by
  rw [jumpTarget, BitVec.toNat_append, ← Nat.shiftLeft_add_eq_or_of_lt (BitVec.isLt _), Nat.shiftLeft_eq, Nat.mul_comm]

/-- Settles O18: the concatenation puts the byte at pc + 2 above the byte at pc + 1. -/
theorem jumpTargetIsLittleEndian : Obligations.JumpTargetIsLittleEndian :=
  toNat_jumpTarget

/-! ## The frames of the two forms (R131, R161) -/

theorem addFrame_of_form {i : Instr} {r : Reg8} (hi : i.form = .add r) : Statements.AddFrame i := by
  intro s t h
  rw [exec_add hi] at h
  cases h
  exact ⟨rfl, rfl, rfl, rfl, rfl, rfl, fun _ => rfl⟩

theorem jumpFrame_of_form {i : Instr} {cond : Cond} (hi : i.form = .jp cond) : Statements.JumpFrame i := by
  intro s t h
  rw [exec_jp hi] at h
  cases h
  exact ⟨fun r => by cases r <;> rfl, rfl, fun _ => rfl⟩

/-- Settles O16: each of the seven is of the add form. -/
theorem addInstructionsFrame : Obligations.AddInstructionsFrame :=
  ⟨addFrame_of_form rfl, addFrame_of_form rfl, addFrame_of_form rfl, addFrame_of_form rfl, addFrame_of_form rfl,
    addFrame_of_form rfl, addFrame_of_form rfl⟩

/-- Settles O20: each of the five is of the jump form. -/
theorem jumpInstructionsFrame : Obligations.JumpInstructionsFrame :=
  ⟨jumpFrame_of_form rfl, jumpFrame_of_form rfl, jumpFrame_of_form rfl, jumpFrame_of_form rfl,
    jumpFrame_of_form rfl⟩

end Sys2Proof.Machine

/-! PROOF. The statements of 60_exceptions.md: a failed step again, and sessions as their actions in order. -/

namespace Sys2Proof.Machine

/-! ## Sessions (D23) -/

section DriveAll
variable (p : Params) (s : State)

@[simp] theorem driveAll_nil : driveAll p s [] = ([], s) := rfl

@[simp] theorem driveAll_cons (act : DriverAction) (rest : List DriverAction) :
    driveAll p s (act :: rest) =
      ((drive p s act).1 :: (driveAll p (drive p s act).2 rest).1, (driveAll p (drive p s act).2 rest).2) := rfl

theorem driveAll_append (before after : List DriverAction) :
    driveAll p s (before ++ after) =
      ((driveAll p s before).1 ++ (driveAll p (driveAll p s before).2 after).1,
        (driveAll p (driveAll p s before).2 after).2) := by
  induction before generalizing s with
  | nil => rfl
  | cons act rest ih => simp [ih]

end DriveAll

/-- Settles O52: one action and nothing after it; the cut by induction over the first part. -/
theorem sessionsRunActionsInOrder : Obligations.SessionsRunActionsInOrder :=
  ⟨fun _ _ _ => rfl, driveAll_append⟩

/-! ## A failed step again (R191, R199) -/

/-- The driver reports a decode failure only with the state it was called at. -/
theorem drive_step_eq_failure {p : Params} {s u : State} {op : Byte} {b : Bool}
    (h : drive p s .step = (.decodeFailure op b, u)) : u = s := by
  obtain ⟨t, hs⟩ | ⟨op', b', hs⟩ := step_next_or_failure s
  · rw [drive_step_of_next hs] at h
    cases h
  · rw [drive_step_of_failure hs] at h
    cases h
    rfl

/-- An action that leaves the state as it was leaves it so however often it is repeated. -/
theorem driveAll_replicate_of_fixed {p : Params} {s : State} {act : DriverAction} (h : (drive p s act).2 = s) (n : Nat) :
    (driveAll p s (List.replicate n act)).2 = s := by
  induction n with
  | zero => rfl
  | succ n ih => rw [List.replicate_succ, driveAll_cons, h, ih]

/-- Settles O34: the failure leaves the state, so the next call is the same call. -/
theorem failedStepIsRepeatable : Obligations.FailedStepIsRepeatable := by
  intro p s u op b h
  obtain rfl := drive_step_eq_failure h
  exact ⟨rfl, h, driveAll_replicate_of_fixed (congrArg Prod.snd h)⟩

end Sys2Proof.Machine

/-! PROOF. The statements of 70_reset_and_hazards.md: the state after reset, the first step after it, a placed word. -/

namespace Sys2Proof.Machine

/-! ## The first instruction (R213) -/

/-- Settles O3: the state after reset at the parameter values the model names. -/
theorem resetStateIsPostBootProfile : Obligations.ResetStateIsPostBootProfile :=
  ⟨State.resetWith_eq Config.params [], State.wf_resetWith Config.params rfl⟩

/-- Settles O4: reset leaves pc at ENTRY_PC and memory as it was. -/
theorem firstStepAfterResetRunsTheProgram : Obligations.FirstStepAfterResetRunsTheProgram :=
  fun p s _ h => step_of_opcode (s := State.resetWith p s.mem) h

/-! ## A placed word (log entry 5) -/

@[simp] theorem State.withFetchWord_pc (s : State) (nbits w : Nat) : (s.withFetchWord nbits w).pc = s.pc := rfl

/-- The first of three bytes put at consecutive addresses is not overwritten by the other two. -/
theorem Memory.read_writeBytes_three {m : Memory} (h : Memory.wf m = true) (addr : Addr) (v0 v1 v2 : Byte) :
    Memory.read (Memory.writeBytes m addr [v0, v1, v2]) addr = v0 := by
  have h0 := Memory.wf_write addr v0 h
  have h1 := Memory.wf_write (addr + 1#16) v1 h0
  have hne1 : addr + 1#16 ≠ addr := by bv_omega
  have hne2 : addr + 1#16 + 1#16 ≠ addr := by bv_omega
  simp only [Memory.writeBytes]
  rw [Memory.read_write h1, if_neg hne2, Memory.read_write h0, if_neg hne1, Memory.read_write_self h]

/-- A table word that decodes has its instruction's opcode byte lowest. -/
theorem decode_of_decodeTableWord {nbits w : Nat} {i : Instr} (h : decodeTableWord nbits w = some i) :
    decode (BitVec.ofNat 8 (w % 2 ^ nbits)) false = some i := by
  cases hbytes : decodeBytes (tableBytes nbits w) with
  | error e => simp [decodeTableWord, hbytes] at h
  | ok read =>
    obtain ⟨code, rest⟩ := read
    obtain rfl : code.instr = i := by simpa [decodeTableWord, hbytes] using h
    obtain ⟨-, hstream⟩ := decodeBytes_eq_ok_iff.1 hbytes
    exact decode_eq_some_iff.2 (List.cons.inj hstream).1

/-- Settles O48: the byte at pc is then the word's lowest. -/
theorem placedWordIsTheNextInstruction : Obligations.PlacedWordIsTheNextInstruction := by
  intro s nbits w i hwf h
  refine ⟨step_of_opcode ?_, rfl⟩
  have hread : Memory.read (s.withFetchWord nbits w).mem s.pc = BitVec.ofNat 8 (w % 2 ^ nbits) :=
    Memory.read_writeBytes_three hwf ..
  rw [State.withFetchWord_pc, hread]
  exact decode_of_decodeTableWord h

end Sys2Proof.Machine
